-- ==== Sys2Proof/Word.lean ====
section
/-! DEFINITION. The words of CKFA: bytes, register offsets, bus words, and the two kinds of input word. -/

namespace Sys2Proof

/-- A byte, an unsigned integer 0..255 (R6). -/
abbrev Byte := BitVec 8

/-- A register offset of the host register space, 0x00..0x1F (R5, R45). -/
abbrev Off := BitVec 5

/-- A host transaction as it stands on the bus: WE, OFF, DATA (R45). -/
abbrev BusWord := BitVec 14

/-- The words that reach CKFA: the host's bus words (R45) and the RX channel's received bytes (R51). -/
inductive InWord where
  | bus (w : BusWord)
  | rx (b : Byte)
deriving DecidableEq, Repr

/-- The bus word `{WE, OFF, DATA}` (R45). -/
def busWord (we : Bool) (off : Off) (data : Byte) : BusWord :=
  (BitVec.ofBool we).setWidth 14 <<< 13 ||| off.setWidth 14 <<< 8 ||| data.setWidth 14

/-- `w[13]` (R45). -/
def busWe (w : BusWord) : Bool := w.getLsbD 13

/-- `w[12:8]` (R45). -/
def busOff (w : BusWord) : Off := w.extractLsb' 8 5

/-- `w[7:0]` (R45). -/
def busData (w : BusWord) : Byte := w.extractLsb' 0 8

/-- The CMD byte `{ARG, OP}` (R47). -/
def cmdByte (arg : BitVec 5) (op : BitVec 3) : Byte := arg.setWidth 8 <<< 3 ||| op.setWidth 8

/-- OP, `c[2:0]` (R47). -/
def cmdOp (c : Byte) : BitVec 3 := c.extractLsb' 0 3

/-- ARG, `c[7:3]` (R47). -/
def cmdArg (c : Byte) : BitVec 5 := c.extractLsb' 3 5

end Sys2Proof
end

