-- ==== Sys2Proof/Config.lean ====
section
/-! DEFINITION. The fixed parameters of CKFA (R4, R5) and its one open parameter, CKFA_BASE (R27). -/

namespace Sys2Proof.Config

/-- `FRAME_LEN`: bytes of a frame, and cells of the window (R4). UNVERIFIED literal (91 N1, log entry 15). -/
abbrev frameLen : Nat := 26

/-- `MARKER` (R4). UNVERIFIED literal (91 N1, log entry 15). -/
abbrev marker : Byte := 0xAA

/-- `MARKER_OFF` (R4). -/
abbrev markerOff : Nat := 0

/-- `ADDR_OFF` (R4). -/
abbrev addrOff : Nat := 1

/-- `CMD_OFF` (R4): the frame's command byte (not the CMD register). -/
abbrev cmdOff : Nat := 2

/-- `PAY_OFF` (R4). -/
abbrev payOff : Nat := 3

/-- `PAY_LEN` (R4). -/
abbrev payLen : Nat := 20

/-- `CK_OFF`: the checksum's offset, and the number of bytes in `CK_SPAN` = offsets 0..24 (R4). -/
abbrev ckOff : Nat := 25

/-- `CK_MOD` (R4). -/
abbrev ckMod : Nat := 256

/-- Offsets of the host register space (R5, R19). -/
abbrev spaceLen : Nat := 32

/-- The offset of CMD (R18, R19). -/
abbrev cmdRegOff : Off := 0x1F

/-- The OP codes of R47. -/
abbrev opClear : BitVec 3 := 0
abbrev opGen : BitVec 3 := 1
abbrev opVerify : BitVec 3 := 2
abbrev opAlign : BitVec 3 := 3
abbrev opCapture : BitVec 3 := 4

/-- `CKFA_BASE`, the open parameter of R27: the host address of offset 0x00. No body: any host address
(DESIGN CHOICE: a host address is a natural number; log entry 11). -/
opaque ckfaBase : Nat

end Sys2Proof.Config
end

