-- ==== Sys2Proof/Syntax.lean ====
section
/-! DEFINITION. The operations of CKFA: one constructor per row of spec/opcode_table.json. -/

namespace Sys2Proof

/-- The eight rows of the opcode table: seven host transactions (R46, R47) and the RX transfer (R51). -/
inductive Instr where
  /-- `RD OFF` (R72). `data` is the word's DATA field: it has no effect on the read ("ignored for a read", R45);
  it is kept because `fault Busy` records the bus word (R81; log entry 6). -/
  | rd (off : Off) (data : Byte)
  /-- `WR OFF, DATA` (R73). OFF is 0x00..0x1E: a write of 0x1F is a CMD write (R46; log entry 7). -/
  | wr (off : Fin 31) (data : Byte)
  /-- `CLEAR` (R74). -/
  | clear
  /-- `GEN LEN` (R58), LEN the five bits of ARG. -/
  | gen (len : BitVec 5)
  /-- `VERIFY` (R61). -/
  | verify
  /-- `ALIGN` (R66). -/
  | align
  /-- `CAPTURE` (R64). -/
  | capture
  /-- `RX b` (R68), the RX channel's transfer. -/
  | rx (b : Byte)
deriving DecidableEq, Repr

end Sys2Proof
end

