-- ==== Sys2Proof/WellFormed.lean ====
section
/-! DEFINITION. Which operations are legal encodings (R47, R50). -/

namespace Sys2Proof

/-- GEN's LEN is 0..20; LEN 21..31 is an illegal encoding (R47, R50). Every other term of `Instr` is legal: OFF of a
read is any offset (R46), OFF of a write is not 0x1F by its type, the other operations have no operand, and every
RX byte is legal (R51). -/
def Instr.wellFormed : Instr → Bool
  | .rd _ _ => true
  | .wr _ _ => true
  | .clear => true
  | .gen len => decide (len.toNat ≤ Config.payLen)
  | .verify => true
  | .align => true
  | .capture => true
  | .rx _ => true

end Sys2Proof
end

