-- ==== Sys2Proof/Decode.lean ====
section
/-! DEFINITION. The decoder from bus words and RX words (R45-R51), the encoder, and the opcode table's rows. -/

namespace Sys2Proof

/-- Why a bus word has no row in the opcode table: the encoding checks 1 and 2 of R49. -/
inductive DecodeError where
  /-- CMD write with OP 0b101..0b111; records the CMD byte. -/
  | reservedOp (c : Byte)
  /-- CMD write of CLEAR, VERIFY, ALIGN or CAPTURE with ARG not 0; records the CMD byte. -/
  | reservedField (c : Byte)
deriving DecidableEq, Repr

/-- A CMD byte (R47), with checks 1 and 2 of R49 in R49's order. Check 3 (LenRange) is GEN's own (R58): the opcode
table's GEN row takes every LEN (log entry 8). -/
def decodeCmd (c : Byte) : Except DecodeError Instr :=
  if cmdOp c = 0b101 ∨ cmdOp c = 0b110 ∨ cmdOp c = 0b111 then .error (.reservedOp c)
  else if cmdOp c ≠ Config.opGen ∧ cmdArg c ≠ 0 then .error (.reservedField c)
  else if cmdOp c = Config.opClear then .ok .clear
  else if cmdOp c = Config.opGen then .ok (.gen (cmdArg c))
  else if cmdOp c = Config.opVerify then .ok .verify
  else if cmdOp c = Config.opAlign then .ok .align
  else .ok .capture

/-- A bus word (R46): WE = 0 is RD whatever DATA holds, WE = 1 is WR, or a CMD write where OFF = 0x1F. -/
def decodeBus (w : BusWord) : Except DecodeError Instr :=
  if busWe w = false then .ok (.rd (busOff w) (busData w))
  else if h : (busOff w).toNat < 31 then .ok (.wr ⟨(busOff w).toNat, h⟩ (busData w))
  else decodeCmd (busData w)

/-- The decoder, total on both kinds of word (R46, R51). -/
def decode : InWord → Except DecodeError Instr
  | .bus w => decodeBus w
  | .rx b => .ok (.rx b)

/-- The bus word of a CMD write of `{ARG, OP}` (R46, R47). -/
def cmdWord (arg : BitVec 5) (op : BitVec 3) : BusWord :=
  busWord true Config.cmdRegOff (cmdByte arg op)

/-- The bus word of RD (R53 writes DATA = 0x00; here DATA as the host sends it). -/
def rdWord (off : Off) (data : Byte) : BusWord := busWord false off data

/-- The bus word of WR (R53). -/
def wrWord (off : Fin 31) (data : Byte) : BusWord := busWord true (BitVec.ofNat 5 off.val) data

/-- The encoder, from the tables of R45, R47, R51 and R53. -/
def encode : Instr → InWord
  | .rd off data => .bus (rdWord off data)
  | .wr off data => .bus (wrWord off data)
  | .clear => .bus (cmdWord 0 Config.opClear)
  | .gen len => .bus (cmdWord len Config.opGen)
  | .verify => .bus (cmdWord 0 Config.opVerify)
  | .align => .bus (cmdWord 0 Config.opAlign)
  | .capture => .bus (cmdWord 0 Config.opCapture)
  | .rx b => .rx b

/-- A bus row of spec/opcode_table.json: a word `w` is the row's iff `w &&& mask = value`. -/
structure OpRow where
  mnemonic : String
  value : BusWord
  mask : BusWord
deriving DecidableEq, Repr

/-- The bus row of each operation; the RX word has no bus row (its own row masks no bit, R51). -/
def busRow : Instr → Option OpRow
  | .rd _ _ => some ⟨"RD", 0x0000, 0x2000⟩
  | .wr _ _ => some ⟨"WR", 0x2000, 0x2000⟩
  | .clear => some ⟨"CLEAR", 0x3F00, 0x3FFF⟩
  | .gen _ => some ⟨"GEN", 0x3F01, 0x3F07⟩
  | .verify => some ⟨"VERIFY", 0x3F02, 0x3FFF⟩
  | .align => some ⟨"ALIGN", 0x3F03, 0x3FFF⟩
  | .capture => some ⟨"CAPTURE", 0x3F04, 0x3FFF⟩
  | .rx _ => none

/-- The input word of `nbits` bits whose value is `w`: a bus word has 14 bits, given in 16 (two bytes) with the two
upper bits 0, an RX word has 8; no other word exists (R52; log entry 10). -/
def tableWord (nbits w : Nat) : Option InWord :=
  if nbits = 8 then
    if w < 2 ^ 8 then some (.rx (BitVec.ofNat 8 w)) else none
  else if nbits = 14 ∨ nbits = 16 then
    if w < 2 ^ 14 then some (.bus (BitVec.ofNat 14 w)) else none
  else none

/-- What the decoder reads from a word of the opcode table, numbered as the table numbers its bits. -/
def decodeTableWord (nbits w : Nat) : Option Instr :=
  match tableWord nbits w with
  | none => none
  | some u =>
    match decode u with
    | .ok i => some i
    | .error _ => none

/-- The offset a host address reaches: `CKFA_BASE + off` reaches `off`, for the 32 offsets and no other address
(R27). -/
def offsetOfHostAddress (addr : Nat) : Option Off :=
  if Config.ckfaBase ≤ addr ∧ addr < Config.ckfaBase + Config.spaceLen then
    some (BitVec.ofNat 5 (addr - Config.ckfaBase))
  else none

end Sys2Proof
end

