-- ==== Sys2Proof/Machine/State.lean ====
section
/-! DEFINITION. The state of CKFA (R10-R25), its environment as data, and the reasons a step can stop. -/

namespace Sys2Proof.Machine

/-- `PHASE` (R17). -/
inductive Phase where
  | idle
  | refill
deriving DecidableEq, Repr

/-- `WIN`: 26 cells, each a byte or `⊥` (`none`, R11, R12). -/
abbrev Window := Vector (Option Byte) Config.frameLen

/-- A frame: 26 bytes in wire order (R42). -/
abbrev Frame := Vector Byte Config.frameLen

/-- The architectural state of CKFA (R11-R17). STAT.BUSY is a view of `phase` (R14). -/
structure Regs where
  /-- WIN[0]..WIN[25] (R11). -/
  win : Window
  /-- CSUM (R13). -/
  csum : Byte
  /-- STAT.OK (R14). -/
  ok : Bool
  /-- STAT.FF (R14). -/
  ff : Bool
  /-- K, bits 4:0 of KOFF (R15). -/
  koff : BitVec 5
  /-- Bits 4:0 of PEND (R16). -/
  pend : BitVec 5
  /-- PHASE (R17). -/
  phase : Phase
deriving DecidableEq, Repr

/-- The closed list of model faults (R81). A faulting transaction changes no architectural state and appends its fault
to the record (R82); the step that does so answers a next state (log entry 2). -/
inductive ModelFault where
  /-- Code 1. RD of a `⊥` cell, or GEN, VERIFY or ALIGN reading one; records the lowest such offset read. Safe: the
  spec's own outcome. -/
  | unwrittenByte (i : Fin Config.frameLen)
  /-- Code 2. RD or WR of a WIN offset, or a CMD write other than CLEAR, while PHASE = REFILL; records the bus word.
  Safe: the spec's own outcome. -/
  | busy (w : BusWord)
  /-- Code 3. RD of 0x1E or 0x1F, WR of 0x1A..0x1E; records the offset. Safe: the spec's own outcome. -/
  | busError (off : Off)
  /-- Code 4. CMD write with OP 0b101..0b111; records the CMD byte. Safe: the spec's own outcome. -/
  | reservedOp (c : Byte)
  /-- Code 5. CMD write of CLEAR, VERIFY, ALIGN or CAPTURE with ARG not 0; records the CMD byte. Safe: the spec's own
  outcome. -/
  | reservedField (c : Byte)
  /-- Code 6. CMD write of GEN with LEN over 20; records LEN. Safe: the spec's own outcome. -/
  | lenRange (n : BitVec 5)
deriving DecidableEq, Repr

/-- What an agent does next: the host issues a transaction, or the RX channel offers the oldest byte it holds
(R2, R3). -/
inductive Event where
  | host (w : BusWord)
  | rxOffer
deriving DecidableEq, Repr

/-- The machine: CKFA's architectural state, the model fault record (R24), and the two agents as data: the bytes the
host has been returned, the bytes the RX channel has still to deliver, and what the agents do next, in the one total
order of R35 (log entries 1, 5). -/
structure State where
  /-- The architectural state of CKFA. -/
  regs : Regs
  /-- The model fault record, oldest first (R24, R82). -/
  faults : List ModelFault
  /-- The bytes RD has returned to the host, oldest first (R72). The model's own field. -/
  returned : List Byte
  /-- The bytes the RX channel has still to deliver, oldest first (R40). The model's own field. -/
  channel : List Byte
  /-- What the agents do next (R3, R35, R84). The model's own field. -/
  events : List Event
deriving DecidableEq, Repr

/-- Why the machine stops. -/
inductive Fault where
  /-- Raised by `step` alone, when no event is left and the model fault record is not empty: such a run is a failed
  run and its final state is a fault, never a normal end (R82; log entry 4). Safe: it rules out claims of success. -/
  | failedRun (record : List ModelFault)
deriving DecidableEq, Repr

/-- An operation without a meaning. -/
inductive Refusal where
  /-- Raised by no arm: every operation of the opcode table has its meaning (R9: no refusal). Safe. -/
  | notModelled (mnemonic : String)
deriving DecidableEq, Repr

/-- The registers after reset (R25, R96). -/
def Regs.reset : Regs where
  win := Vector.replicate Config.frameLen none
  csum := 0x00
  ok := false
  ff := false
  koff := 0
  pend := 0
  phase := .idle

/-- The machine after reset (R25, R97): an empty fault record, and (DESIGN CHOICE, log entries 1 and 5) nothing
returned, no byte in the channel and no event. -/
def State.reset : State where
  regs := Regs.reset
  faults := []
  returned := []
  channel := []
  events := []

end Sys2Proof.Machine
end

