-- ==== Sys2Proof/Machine/Operands.lean ====
section
/-! DEFINITION. The operand forms: which register an offset names (R19), and the cells an operation reads. -/

namespace Sys2Proof.Machine

/-- The registers of the host register space (R19). -/
inductive RegName where
  | win (i : Fin Config.frameLen)
  | csum
  | stat
  | koff
  | pend
  /-- Offset 0x1E. -/
  | reserved
  | cmd
deriving DecidableEq, Repr

/-- The register at an offset (R19). -/
def regAt (off : Off) : RegName :=
  if h : off.toNat < Config.frameLen then .win ⟨off.toNat, h⟩
  else if off = 0x1A then .csum
  else if off = 0x1B then .stat
  else if off = 0x1C then .koff
  else if off = 0x1D then .pend
  else if off = 0x1E then .reserved
  else .cmd

/-- The offset in a WR, as the five bits of the bus word. -/
def wrOffset (off : Fin 31) : Off := BitVec.ofNat 5 off.val

/-- All 26 offsets of the window, increasing (R7). -/
def allOffsets : List (Fin Config.frameLen) := List.finRange Config.frameLen

/-- `CK_SPAN`: offsets 0 to 24, increasing (R4, R55). -/
def spanOffsets : List (Fin Config.frameLen) := allOffsets.filter fun i => i.val < Config.ckOff

/-- The offsets GEN reads: 1, 2 and 3..3+LEN-1, increasing (R58). -/
def genOffsets (len : Nat) : List (Fin Config.frameLen) :=
  allOffsets.filter fun i => Config.addrOff ≤ i.val ∧ i.val < Config.payOff + len

/-- The lowest `⊥` cell among the offsets `is`, which are listed in increasing order (R12). -/
def firstUnwritten (w : Window) (is : List (Fin Config.frameLen)) : Option (Fin Config.frameLen) :=
  is.find? fun i => w[i].isNone

/-- The bytes at the offsets `is`, in order. Used where `firstUnwritten` has found no `⊥` among them: no value stands
for a `⊥` cell (R12). -/
def bytesAt (w : Window) (is : List (Fin Config.frameLen)) : List Byte := is.filterMap fun i => w[i]

/-- The cell `RX` writes, `26 - PEND` (R68). -/
def refillOffset (r : Regs) : Nat := Config.frameLen - r.pend.toNat

end Sys2Proof.Machine
end

