-- ==== Sys2Proof/Machine/Flags.lean ====
section
/-! DEFINITION. The checksum (R6, R55), validity (R43), the marker search (R65), and the bytes the read-only registers
read as (R13-R16, R72). -/

namespace Sys2Proof.Machine

/-- `sum8(xs)`: the exact sum, reduced modulo 256 (R6, R8). -/
def sum8 (xs : List Byte) : Byte := BitVec.ofNat 8 ((xs.map BitVec.toNat).sum % Config.ckMod)

/-- `sum8(WIN[0..24])` (R55). Byte 25 is not in the sum. -/
def windowSum (w : Window) : Byte := sum8 (bytesAt w spanOffsets)

/-- `sum8(f[0..24])` of a frame (R42, R55). -/
def frameSum (f : Frame) : Byte := sum8 (f.toList.take Config.ckOff)

/-- `WIN[25]` (R78: the received checksum). -/
def checksumCell (w : Window) : Option Byte := w[Config.ckOff]

/-- A frame is valid iff `f[25] = sum8(f[0..24])`; offset 0 is not looked at (R43). -/
def frameValid (f : Frame) : Bool := f[Config.ckOff] == frameSum f

/-- The marker search: the lowest offset holding 0xAA, over all 26 (R65). -/
def findMarker (w : Window) : Option (Fin Config.frameLen) :=
  allOffsets.find? fun i => w[i] == some Config.marker

/-- STAT.BUSY, the view of PHASE (R14). -/
def busyBit (r : Regs) : Bool := r.phase == .refill

/-- The byte STAT reads as: `{0b00000, BUSY, FF, OK}` (R72). -/
def statByte (r : Regs) : Byte :=
  (BitVec.ofBool (busyBit r)).setWidth 8 <<< 2 ||| (BitVec.ofBool r.ff).setWidth 8 <<< 1 |||
    (BitVec.ofBool r.ok).setWidth 8

/-- The byte KOFF reads as, `zext_8(K)` (R72). -/
def koffByte (r : Regs) : Byte := r.koff.setWidth 8

/-- The byte PEND reads as, `zext_8(PEND)` (R72). -/
def pendByte (r : Regs) : Byte := r.pend.setWidth 8

end Sys2Proof.Machine
end

