-- ==== Sys2Proof/Machine/Ops.lean ====
section
/-! DEFINITION. The shared operations: the outcomes of a transaction (R9, R82), the checks on state (R31, R49, R83),
writes of the window and of the refill state (R14, R16, R17), and the agents' next event (R2, R40). -/

namespace Sys2Proof.Machine

/-- The three outcomes of a transaction (R9). -/
inductive Effect where
  /-- The state after the transaction. -/
  | done (s : State)
  /-- The transaction ends in a model fault (R81). -/
  | modelFault (f : ModelFault)
  /-- The RX agent has no step (R69). -/
  | hold

/-- The code of a model fault (R81). -/
def faultCode : ModelFault → Nat
  | .unwrittenByte _ => 1
  | .busy _ => 2
  | .busError _ => 3
  | .reservedOp _ => 4
  | .reservedField _ => 5
  | .lenRange _ => 6

/-- A model fault: appended to the record, everything else as before the transaction (R82). -/
def recordFault (f : ModelFault) (s : State) : State := { s with faults := s.faults ++ [f] }

/-- The model fault of a bus word that has no row in the opcode table (R49 checks 1 and 2, R81). -/
def faultOfDecodeError : DecodeError → ModelFault
  | .reservedOp c => .reservedOp c
  | .reservedField c => .reservedField c

/-- A transaction that began in `s`, as a step of the machine. A model fault is a next state, with the record one
longer and nothing else changed (DEDUCED from R24 and R82; log entry 2); a hold changes nothing (R69; log entry 3). -/
def commit (s : State) : Effect → Host.Outcome State Fault Refusal
  | .done t => .next t
  | .modelFault f => .next (recordFault f s)
  | .hold => .next s

/-- The phase check of R31 and of R49 check 4: `fault Busy`, recording the bus word, while PHASE = REFILL. -/
def unlessBusy (s : State) (w : BusWord) (e : Effect) : Effect :=
  match s.regs.phase with
  | .refill => .modelFault (.busy w)
  | .idle => e

/-- The check of an operation that reads the cells `is`: `fault UnwrittenByte` of the lowest `⊥` among them (R12). -/
def unlessUnwritten (s : State) (is : List (Fin Config.frameLen)) (e : Effect) : Effect :=
  match firstUnwritten s.regs.win is with
  | some i => .modelFault (.unwrittenByte i)
  | none => e

/-- The machine with other registers. -/
def setRegs (r : Regs) (s : State) : State := { s with regs := r }

/-- A byte returned to the host by RD (R72; log entry 5). -/
def returnByte (b : Byte) (s : State) : State := { s with returned := s.returned ++ [b] }

/-- The accepted byte has left the channel (R40). -/
def takeFromChannel (s : State) : State := { s with channel := s.channel.tail }

/-- The window is written: every write to a cell clears STAT.OK (R14). -/
def setWindow (w : Window) (r : Regs) : Regs := { r with win := w, ok := false }

/-- `WIN[i] <- b`, which clears STAT.OK (R14, R73). No cell is written where `i` is past offset 25: only RX can ask for
that, and only with PEND = 0, where no run comes (R22; log entry 9). -/
def writeCell (i : Nat) (b : Byte) (r : Regs) : Regs := setWindow (r.win.setIfInBounds i (some b)) r

/-- `PEND <- n; PHASE <- REFILL` (R64, R66). -/
def startRefill (n : BitVec 5) (r : Regs) : Regs := { r with pend := n, phase := .refill }

/-- `PEND <- 0; PHASE <- IDLE` (R74). -/
def endRefill (r : Regs) : Regs := { r with pend := 0, phase := .idle }

/-- `PEND <- PEND - 1; if PEND = 0: PHASE <- IDLE` (R68). -/
def countRefill (r : Regs) : Regs :=
  { r with pend := r.pend - 1, phase := if r.pend - 1 = 0 then .idle else r.phase }

/-- `STAT.FF <- ff; K <- k` (R64, R66, R74). -/
def setAlignResult (ff : Bool) (k : BitVec 5) (r : Regs) : Regs := { r with ff := ff, koff := k }

/-- The window with `k` bytes dropped and `k` trailing cells `⊥` (R66). -/
def shiftWindow (k : Nat) (w : Window) : Window :=
  Vector.ofFn fun i => if h : i.val + k < Config.frameLen then w[i.val + k] else none

/-- GEN's window before its checksum: the marker, the operand bytes kept, zeros from offset 3+LEN to 24 (padding and
gap), offset 25 not yet written (R58). -/
def genBody (len : Nat) (w : Window) : Window :=
  Vector.ofFn fun i =>
    if i.val = Config.markerOff then some Config.marker
    else if Config.payOff + len ≤ i.val ∧ i.val < Config.ckOff then some 0x00
    else w[i]

/-- What the next event brings. -/
inductive Fetched where
  /-- No event is left. -/
  | nothing
  /-- An RX offer of an empty channel: nothing is offered (R69). -/
  | noOffer (s : State)
  /-- A word reaches CKFA in the state `s`. -/
  | word (u : InWord) (s : State)

/-- The next event (R2, R3, R35). An offered byte is still in the channel: RX takes it if it accepts it (R40). -/
def fetch (s : State) : Fetched :=
  match s.events with
  | [] => .nothing
  | .host w :: es => .word (.bus w) { s with events := es }
  | .rxOffer :: es =>
    match s.channel with
    | [] => .noOffer { s with events := es }
    | b :: _ => .word (.rx b) { s with events := es }

/-- The end of a run: a failed run if its fault record is not empty (R82), else nothing more happens (log entry 4). -/
def endOfRun (s : State) : Host.Outcome State Fault Refusal :=
  match s.faults with
  | [] => .next s
  | f :: fs => .fault (.failedRun (f :: fs))

/-- The machine with one word placed before all that is to come: the next event brings exactly it. -/
def placeWord (u : InWord) (s : State) : State :=
  match u with
  | .bus w => { s with events := .host w :: s.events }
  | .rx b => { s with channel := b :: s.channel, events := .rxOffer :: s.events }

end Sys2Proof.Machine
end

