-- ==== Sys2Proof/Machine/ChecksumUnit.lean ====
section
/-! DEFINITION. The checksum unit: GEN, VERIFY (40_checksum.md). -/

namespace Sys2Proof.Machine

/-- GEN's window with its checksum at offset 25 (R58). -/
def genWindow (len : Nat) (w : Window) : Window :=
  (genBody len w).set Config.ckOff (some (windowSum (genBody len w)))

/-- GEN's writes: WIN, which clears STAT.OK, and CSUM (R58). -/
def genRegs (len : Nat) (r : Regs) : Regs :=
  { setWindow (genWindow len r.win) r with csum := windowSum (genBody len r.win) }

/-- `GEN LEN` (R58): check 3 of R49 (LenRange), check 4 (Busy), then the cells it reads, then the frame. -/
def execGen (len : BitVec 5) (s : State) : Host.Outcome State Fault Refusal :=
  commit s <|
    if Config.payLen < len.toNat then .modelFault (.lenRange len)
    else
      unlessBusy s (cmdWord len Config.opGen) <|
        unlessUnwritten s (genOffsets len.toNat) <|
          .done (setRegs (genRegs len.toNat s.regs) s)

/-- VERIFY's writes: CSUM, and STAT.OK iff the sum is `WIN[25]` (R61). -/
def verifyRegs (r : Regs) : Regs :=
  { r with csum := windowSum r.win, ok := checksumCell r.win == some (windowSum r.win) }

/-- `VERIFY` (R61). -/
def execVerify (s : State) : Host.Outcome State Fault Refusal :=
  commit s <|
    unlessBusy s (cmdWord 0 Config.opVerify) <|
      unlessUnwritten s allOffsets <|
        .done (setRegs (verifyRegs s.regs) s)

end Sys2Proof.Machine
end

