-- ==== Sys2Proof/Machine/FrameAligner.lean ====
section
/-! DEFINITION. The frame aligner unit: CAPTURE, ALIGN, RX (41_frame_aligner.md). -/

namespace Sys2Proof.Machine

/-- CAPTURE's writes (R64): every cell `⊥`, 26 bytes pending, the flags and K cleared; CSUM unchanged. -/
def captureRegs (r : Regs) : Regs :=
  setAlignResult false 0 <|
    startRefill (BitVec.ofNat 5 Config.frameLen) <|
      setWindow (Vector.replicate Config.frameLen none) r

/-- `CAPTURE` (R64). -/
def execCapture (s : State) : Host.Outcome State Fault Refusal :=
  commit s <|
    unlessBusy s (cmdWord 0 Config.opCapture) <|
      .done (setRegs (captureRegs s.regs) s)

/-- ALIGN's writes (R66): STAT.OK cleared always; FF and K from the marker search (R65); where the marker stands at
`k > 0` the window is shifted by `k` and `k` bytes are pending. CSUM unchanged. -/
def alignRegs (r : Regs) : Regs :=
  match findMarker r.win with
  | none => setAlignResult true 0 { r with ok := false }
  | some k =>
    if k.val = 0 then setAlignResult false 0 { r with ok := false }
    else
      setAlignResult false (BitVec.ofNat 5 k.val) <|
        startRefill (BitVec.ofNat 5 k.val) <|
          setWindow (shiftWindow k.val r.win) r

/-- `ALIGN` (R66). -/
def execAlign (s : State) : Host.Outcome State Fault Refusal :=
  commit s <|
    unlessBusy s (cmdWord 0 Config.opAlign) <|
      unlessUnwritten s allOffsets <|
        .done (setRegs (alignRegs s.regs) s)

/-- RX's writes (R68): the byte at `26 - PEND`, one byte fewer pending, IDLE after the last. -/
def rxRegs (b : Byte) (r : Regs) : Regs :=
  countRefill (writeCell (refillOffset r) b r)

/-- `RX b` (R68, R69): the offered byte is accepted, and leaves the channel, iff PHASE = REFILL; else the RX agent
holds and the byte stays in the channel (R40). -/
def execRx (b : Byte) (s : State) : Host.Outcome State Fault Refusal :=
  commit s <|
    match s.regs.phase with
    | .idle => .hold
    | .refill => .done (takeFromChannel (setRegs (rxRegs b s.regs) s))

end Sys2Proof.Machine
end

