-- ==== Sys2Proof/Machine/HostAccess.lean ====
section
/-! DEFINITION. Host access and control: RD, WR, CLEAR (42_host_access.md). -/

namespace Sys2Proof.Machine

/-- `RD OFF` (R72, R31): no side effect on CKFA; the byte goes to the host. -/
def execRd (off : Off) (data : Byte) (s : State) : Host.Outcome State Fault Refusal :=
  commit s <|
    match regAt off with
    | .win i =>
      unlessBusy s (rdWord off data) <|
        match s.regs.win[i] with
        | some b => .done (returnByte b s)
        | none => .modelFault (.unwrittenByte i)
    | .csum => .done (returnByte s.regs.csum s)
    | .stat => .done (returnByte (statByte s.regs) s)
    | .koff => .done (returnByte (koffByte s.regs) s)
    | .pend => .done (returnByte (pendByte s.regs) s)
    | .reserved => .modelFault (.busError off)
    | .cmd => .modelFault (.busError off)

/-- `WR OFF, DATA`, OFF not 0x1F (R73, R31). -/
def execWr (off : Fin 31) (data : Byte) (s : State) : Host.Outcome State Fault Refusal :=
  commit s <|
    match regAt (wrOffset off) with
    | .win i => unlessBusy s (wrWord off data) (.done (setRegs (writeCell i.val data s.regs) s))
    | _ => .modelFault (.busError (wrOffset off))

/-- `CLEAR` (R74): allowed in either phase; WIN and CSUM unchanged. -/
def execClear (s : State) : Host.Outcome State Fault Refusal :=
  commit s (.done (setRegs (setAlignResult false 0 { endRefill s.regs with ok := false }) s))

end Sys2Proof.Machine
end

