-- ==== Sys2Proof/Machine/Dispatch.lean ====
section
/-! DEFINITION. One arm per row of the opcode table. -/

namespace Sys2Proof.Machine

def exec (i : Instr) (s : State) : Host.Outcome State Fault Refusal :=
  match i with
  | .rd off data => Sys2Proof.Machine.execRd off data s
  | .wr off data => Sys2Proof.Machine.execWr off data s
  | .clear => Sys2Proof.Machine.execClear s
  | .gen len => Sys2Proof.Machine.execGen len s
  | .verify => Sys2Proof.Machine.execVerify s
  | .align => Sys2Proof.Machine.execAlign s
  | .capture => Sys2Proof.Machine.execCapture s
  | .rx b => Sys2Proof.Machine.execRx b s

end Sys2Proof.Machine
end

