-- ==== Sys2Proof/Machine/Step.lean ====
section
/-! DEFINITION. One step: the next event's word is decoded and run, or its decoding's fault is recorded. -/

namespace Sys2Proof.Machine

/-- A word that reaches CKFA: decoded (R46, R49 checks 1 and 2) and run, or the fault recorded (R49, R82). -/
def runWord (u : InWord) (s : State) : Host.Outcome State Fault Refusal :=
  match decode u with
  | .ok i => exec i s
  | .error e => commit s (.modelFault (faultOfDecodeError e))

/-- One step of the machine (R9, R35). -/
def step (s : State) : Host.Outcome State Fault Refusal :=
  match fetch s with
  | .nothing => endOfRun s
  | .noOffer t => .next t
  | .word u t => runWord u t

/-- The state whose next step brings exactly the opcode table's word `w` (log entry 10); unchanged where no word of that
many bits exists. -/
def State.withFetchWord (s : State) (nbits w : Nat) : State :=
  match tableWord nbits w with
  | none => s
  | some u => placeWord u s

end Sys2Proof.Machine
end

