-- ==== Sys2Proof/Machine/HostSequences.lean ====
section
/-! DEFINITION. The host's pseudo-operations (R54): sequences of host transactions, none an operation of CKFA, and their
runs. WAITIDLE and RECEIVE choose their next transaction by the byte of STAT they read, so a pseudo-operation is a list of
host moves, and its run takes turns with the RX channel in any order (R3, R84; log entry 13). -/

namespace Sys2Proof.Machine

/-- An operation as an event: a host transaction's bus word, or an RX offer (the byte offered is the channel's). -/
def eventOf (i : Instr) : Event :=
  match encode i with
  | .bus w => .host w
  | .rx _ => .rxOffer

/-- A WR of the window cell at offset `i` (R53). -/
def wrCell (i : Nat) (b : Byte) : Instr := .wr (Fin.ofNat 31 i) b

/-- A RD of offset `off`, with DATA = 0x00 (R53). -/
def rdAt (off : Nat) : Instr := .rd (BitVec.ofNat 5 off) 0x00

/-- `ENCODE a, c, p0, ..., p(n-1)`, n at most 20 (R54). -/
def encodeSeq (a c : Byte) (p : List Byte) : List Instr :=
  [wrCell Config.addrOff a, wrCell Config.cmdOff c]
    ++ p.mapIdx (fun i b => wrCell (Config.payOff + i) b) ++ [.gen (BitVec.ofNat 5 p.length)]

/-- `READFRAME` (R54). -/
def readFrameSeq : List Instr := (List.range Config.frameLen).map rdAt

/-- `LOADWIN b0, ..., b25` (R54). -/
def loadWinSeq (f : Frame) : List Instr := f.toList.mapIdx wrCell

/-- `DECODE` (R54, R62). -/
def decodeSeq : List Instr :=
  [.verify, rdAt 0x1B, rdAt Config.cmdOff] ++ (List.range Config.payLen).map fun j => rdAt (Config.payOff + j)

/-- What DECODE returns (R54, R62). -/
structure DecodeResult where
  /-- `WIN[2]`. -/
  commandEcho : Byte
  /-- `WIN[3..22]`. -/
  payload : Vector Byte Config.payLen
  /-- STAT.OK after the VERIFY. -/
  checksumOk : Bool
deriving DecidableEq, Repr

/-- DECODE's result in the bytes its 22 reads return: bit 0 of STAT, the command, the payload (R54, R62); none where the
reads did not return 22 bytes (one of them faulted). -/
def decodeResult (bs : List Byte) : Option DecodeResult :=
  if h : bs.length = 2 + Config.payLen then
    some
      { commandEcho := bs[1]
        payload := Vector.ofFn fun j => bs[2 + j.val]
        checksumOk := bs[0].getLsbD 0 }
  else none

/-- READFRAME's result, the frame to transmit, in the bytes its 26 reads return (R54); none where the reads did not return
26 bytes (one of them faulted). -/
def readFrameResult (bs : List Byte) : Option Frame :=
  if h : bs.length = Config.frameLen then some (Vector.ofFn fun i => bs[i.val]) else none

/-- One poll of `WAITIDLE` says idle: bit 2 of the byte read is 0 (R54). -/
def pollIsIdle (b : Byte) : Bool := !b.getLsbD 2

/-- The STAT read of `RECEIVE` says framing failure: bit 1 of the byte read is 1 (R54). -/
def pollIsFramingFailure (b : Byte) : Bool := b.getLsbD 1

/-- One part of a pseudo-operation's expansion (R54). -/
inductive HostMove where
  /-- One host transaction. -/
  | issue (i : Instr)
  /-- `WAITIDLE`: repeat `RD 0x1B` until bit 2 of the byte read is 0. -/
  | waitIdle
  /-- `RD 0x1B`; if bit 1 = 1: framing failure, stop. -/
  | stopAtFramingFailure
deriving DecidableEq, Repr

/-- A pseudo-operation that chooses nothing, as moves: ENCODE, READFRAME, LOADWIN, DECODE (R54). -/
def movesOf (is : List Instr) : List HostMove := is.map .issue

/-- `WAITIDLE` (R54). -/
def waitIdleMoves : List HostMove := [.waitIdle]

/-- `RECEIVE` (R54). -/
def receiveMoves : List HostMove :=
  [.issue .capture] ++ waitIdleMoves ++ [.issue .align, .stopAtFramingFailure] ++ waitIdleMoves ++ movesOf decodeSeq

/-- The host transaction of a move. -/
def moveInstr : HostMove → Instr
  | .issue i => i
  | .waitIdle => rdAt 0x1B
  | .stopAtFramingFailure => rdAt 0x1B

/-- The move stops its pseudo-operation on the byte its transaction returned (R54). -/
def moveStops (m : HostMove) (b : Option Byte) : Bool :=
  match m with
  | .issue _ => false
  | .waitIdle => false
  | .stopAtFramingFailure => b.any pollIsFramingFailure

/-- The moves left when the move `m`, with `ms` after it, has had the byte `b` returned (R54): WAITIDLE stays until a poll
says idle, and nothing is left after a stop. -/
def movesAfter (m : HostMove) (ms : List HostMove) (b : Option Byte) : List HostMove :=
  match m with
  | .issue _ => ms
  | .waitIdle => if b.any pollIsIdle then ms else .waitIdle :: ms
  | .stopAtFramingFailure => if b.any pollIsFramingFailure then [] else ms

/-- The host running one pseudo-operation on the machine. -/
structure HostRun where
  /-- The machine. -/
  machine : State
  /-- What the host has still to do. -/
  moves : List HostMove
  /-- RECEIVE has stopped at a framing failure. -/
  framingFailure : Bool
deriving DecidableEq, Repr

/-- The start of a pseudo-operation on the machine `s`. -/
def startHostRun (ms : List HostMove) (s : State) : HostRun :=
  { machine := s, moves := ms, framingFailure := false }

/-- Who acts next: the host or the RX channel. Every order is a list of turns (R3, R84). -/
inductive Turn where
  | host
  | rx
deriving DecidableEq, Repr

/-- One step of the machine on the event `e`, before all else that is to come. -/
def stepOn (e : Event) (s : State) : Host.Outcome State Fault Refusal :=
  step { s with events := e :: s.events }

/-- The byte that a step from `s` to `t` returned to the host, if it returned one (R72). -/
def byteReturned (s t : State) : Option Byte := t.returned[s.returned.length]?

/-- The run after the host's move `m` took the machine to `t`. -/
def afterMove (m : HostMove) (ms : List HostMove) (r : HostRun) (t : State) : HostRun :=
  { machine := t
    moves := movesAfter m ms (byteReturned r.machine t)
    framingFailure := r.framingFailure || moveStops m (byteReturned r.machine t) }

/-- The event of a turn: the next move's transaction, none where no move is left, or an RX offer. -/
def turnEvent (a : Turn) (ms : List HostMove) : Option Event :=
  match a with
  | .host => ms.head?.map fun m => eventOf (moveInstr m)
  | .rx => some .rxOffer

/-- The run after a turn took the machine to `t`. -/
def afterTurn (a : Turn) (r : HostRun) (t : State) : HostRun :=
  match a, r.moves with
  | .host, m :: ms => afterMove m ms r t
  | .host, [] => r
  | .rx, _ => { r with machine := t }

/-- One turn (R3): one transaction of the host, or one offer of the RX channel, which leaves the host where it is. -/
def takeTurn (a : Turn) (r : HostRun) : Host.Outcome HostRun Fault Refusal :=
  match turnEvent a r.moves with
  | none => .next r
  | some e =>
    match stepOn e r.machine with
    | .next t => .next (afterTurn a r t)
    | .fault f => .fault f
    | .refused f => .refused f

/-- A run of turns. -/
def takeTurns : List Turn → HostRun → Host.Outcome HostRun Fault Refusal
  | [], r => .next r
  | a :: as, r =>
    match takeTurn a r with
    | .next q => takeTurns as q
    | .fault f => .fault f
    | .refused f => .refused f

/-- The events a run of turns gives the machine, in their total order (R35). -/
def turnEvents : List Turn → HostRun → List Event
  | [], _ => []
  | a :: as, r =>
    match takeTurn a r with
    | .next q => (turnEvent a r.moves).toList ++ turnEvents as q
    | _ => []

end Sys2Proof.Machine
end

