-- ==== Sys2Proof/Safety.lean ====
section
/-! DEFINITION. The terms claims use: failed runs (R82), the invariant of R22, reachable states, and runs. -/

namespace Sys2Proof.Machine

/-- The run is a failed run (R82). -/
def isFailed (s : State) : Prop := s.faults ≠ []

/-- The invariants of R22, one field per clause. -/
structure RegsInv (r : Regs) : Prop where
  refill_iff_pending : r.phase = .refill ↔ 0 < r.pend.toNat
  pend_le : r.pend.toNat ≤ 26
  koff_le : r.koff.toNat ≤ 25
  ff_koff : r.ff = true → r.koff = 0
  refill_cells : r.phase = .refill → ∀ i : Fin Config.frameLen, 26 - r.pend.toNat ≤ i.val → r.win[i] = none
  ok_written : r.ok = true → ∀ i : Fin Config.frameLen, r.win[i] ≠ none
  ok_checksum : r.ok = true → r.win[25] = some (windowSum r.win)
  ok_csum : r.ok = true → some r.csum = r.win[25]

/-- The machine at the start of a run: the reset state with any bytes to come and any agents' events (R97, R41). -/
def startState (channel : List Byte) (events : List Event) : State :=
  { State.reset with channel := channel, events := events }

/-- The states that runs reach, for any bytes and any order of the agents' events (R3, R41, R97). -/
inductive Reachable : State → Prop where
  | start (channel : List Byte) (events : List Event) : Reachable (startState channel events)
  | step {s t : State} : Reachable s → step s = .next t → Reachable t

/-- The host operations that R31 and R99 close while PHASE = REFILL: RD and WR of a WIN offset, GEN of a legal LEN,
VERIFY, ALIGN, CAPTURE. -/
def needsIdle : Instr → Bool
  | .rd off _ => decide (off.toNat < Config.frameLen)
  | .wr off _ => decide (off.val < Config.frameLen)
  | .clear => false
  | .gen len => decide (len.toNat ≤ Config.payLen)
  | .verify => true
  | .align => true
  | .capture => true
  | .rx _ => false

/-- `k` steps of the machine, stopping at the end of a failed run. -/
def runFor : Nat → State → Host.Outcome State Fault Refusal
  | 0, s => .next s
  | k + 1, s =>
    match step s with
    | .next t => runFor k t
    | .fault r => .fault r
    | .refused r => .refused r

end Sys2Proof.Machine
end

