-- ==== Sys2Proof/Certificates/Slice0/Obligations.lean ====
section
/-! DEFINITION. The statements about CKFA. A model fault is a next state with the fault record one longer (log entry 2),
and a hold is a next state that is the same state (log entry 3): a statement with a clause about one of them rests on
that entry. -/

open Sys2Proof Sys2Proof.Machine

/-! ### Words -/

/-- Decoding an encoded operation gives it back, with every operand at every value (R45-R47, R51). -/
def Obligations.DecodeOfEncodeIsTheInstruction : Prop :=
  ∀ i : Instr, decode (encode i) = .ok i

/-- A word that decodes to an operation is that operation's encoding. For a RD this is the model's choice (log entry 6):
`Instr.rd` keeps the DATA bits of its word, which R45 ignores, so that the 256 words that R46 calls the one operation RD OFF
stay apart. For every other word it follows from 30_encoding.md sections 2 to 4. -/
def Obligations.EncodeOfDecodeIsTheWord : Prop :=
  ∀ (u : InWord) (i : Instr), decode u = .ok i → encode i = u

/-- R46: a bus word is a read, a write of an offset other than 0x1F, or a CMD write. -/
def Obligations.BusWordIsReadWriteOrCommand : Prop :=
  ∀ w : BusWord,
    (busWe w = false → decode (.bus w) = .ok (.rd (busOff w) (busData w))) ∧
    (busWe w = true → busOff w ≠ 0x1F →
      ∃ off : Fin 31, off.val = (busOff w).toNat ∧ decode (.bus w) = .ok (.wr off (busData w))) ∧
    (busWe w = true → busOff w = 0x1F → decode (.bus w) = decodeCmd (busData w))

/-- Words written out from R45, R47 and R53 decode to what they stand for (programs P1 and P2 of 95_test_vectors.md). -/
def Obligations.WrittenOutWordsDecode : Prop :=
  decode (.bus 0x1900) = .ok (.rd 0x19 0x00) ∧ decode (.bus 0x2339) = .ok (.wr 3 0x39) ∧
  decode (.bus 0x3F00) = .ok .clear ∧ decode (.bus 0x3F21) = .ok (.gen 4) ∧
  decode (.bus 0x3F02) = .ok .verify ∧ decode (.bus 0x3F03) = .ok .align ∧
  decode (.bus 0x3F04) = .ok .capture ∧ decode (.rx 0xF3) = .ok (.rx 0xF3)

/-- R27: a host address reaches an offset iff it is `CKFA_BASE + off` for that offset (the base is any, log entry
11). -/
def Obligations.HostAddressesReachOnlyTheirOffset : Prop :=
  ∀ (addr : Nat) (off : Off),
    offsetOfHostAddress addr = some off ↔ addr = Config.ckfaBase + off.toNat

/-! ### Steps -/

/-- A step runs the operation its event's word decodes to: a host transaction in the state without the event, an RX
offer of the channel's oldest byte, which RX itself takes from the channel. -/
def Obligations.StepRunsTheDecodedInstruction : Prop :=
  (∀ (s : State) (w : BusWord) (es : List Event) (i : Instr),
    s.events = .host w :: es → decode (.bus w) = .ok i → step s = exec i { s with events := es }) ∧
  (∀ (s : State) (b : Byte) (bs : List Byte) (es : List Event),
    s.events = .rxOffer :: es → s.channel = b :: bs → step s = exec (.rx b) { s with events := es })

/-- The word that `withFetchWord` places is the one the next step runs (the model's own reading of R45 and R51, log
entry 10). -/
def Obligations.PlacedWordRunsNext : Prop :=
  (∀ (s : State) (i : Instr) (w : BusWord),
    decode (.bus w) = .ok i → step (s.withFetchWord 16 w.toNat) = exec i s) ∧
  (∀ (s : State) (b : Byte),
    step (s.withFetchWord 8 b.toNat) = exec (.rx b) { s with channel := b :: s.channel })

/-- The order in which a CMD write is decoded and checked (30_encoding.md section 3): the reserved OP, the reserved
ARG, LEN, the phase, and only then the operation OP selects. Its fault clauses rest on log entry 2. -/
def Obligations.CmdWriteIsCheckedInOrder : Prop :=
  ∀ (s : State) (w : BusWord) (es : List Event), s.events = .host w :: es → busWe w = true → busOff w = 0x1F →
    let c := busData w
    let t := { s with events := es }
    step s =
      if cmdOp c = 5 ∨ cmdOp c = 6 ∨ cmdOp c = 7 then .next { t with faults := s.faults ++ [.reservedOp c] }
      else if cmdOp c ≠ 1 ∧ cmdArg c ≠ 0 then .next { t with faults := s.faults ++ [.reservedField c] }
      else if cmdOp c = 1 ∧ 20 < (cmdArg c).toNat then .next { t with faults := s.faults ++ [.lenRange (cmdArg c)] }
      else if cmdOp c ≠ 0 ∧ s.regs.phase = .refill then .next { t with faults := s.faults ++ [.busy w] }
      else if cmdOp c = 0 then exec .clear t
      else if cmdOp c = 1 then exec (.gen (cmdArg c)) t
      else if cmdOp c = 2 then exec .verify t
      else if cmdOp c = 3 then exec .align t
      else exec .capture t

/-- The end of a run: a failed run where the fault record is not empty, and nothing more to happen where it is (the
model's choice for R82's "treats its final state as a fault", log entry 4). -/
def Obligations.RunEndsFailedIffAFaultIsRecorded : Prop :=
  ∀ s : State, s.events = [] →
    (s.faults = [] → step s = .next s) ∧ (isFailed s → step s = .fault (.failedRun s.faults))

/-- A step appends at most one fault to the record and removes none; a step that appends one changes nothing else but
that its event is spent (60_exceptions.md section 2; that it is a next state is log entry 2). -/
def Obligations.FaultsArePreciseAndNeverCleared : Prop :=
  ∀ s t : State, step s = .next t →
    t.faults = s.faults ∨
    ∃ f, t.faults = s.faults ++ [f] ∧ t.regs = s.regs ∧ t.returned = s.returned ∧ t.channel = s.channel ∧
      t.events = s.events.tail

/-- Every operation answers a next state from every state: none refuses and none stops the machine (00_scope.md
section 6, with log entries 2 and 3). -/
def Obligations.NoOperationStopsTheMachine : Prop :=
  ∀ (i : Instr) (s : State), ∃ t, exec i s = .next t

/-! ### Reset and the invariant -/

/-- R25: what reset leaves, CSUM to the fault record. -/
def Obligations.ResetLeavesTheSpecsValues : Prop :=
  (∀ i : Fin Config.frameLen, State.reset.regs.win[i] = none) ∧ State.reset.regs.csum = 0x00 ∧
  State.reset.regs.ok = false ∧ State.reset.regs.ff = false ∧ busyBit State.reset.regs = false ∧
  (∀ j, 3 ≤ j → (statByte State.reset.regs).getLsbD j = false) ∧
  koffByte State.reset.regs = 0 ∧ pendByte State.reset.regs = 0 ∧ State.reset.regs.phase = .idle ∧
  State.reset.faults = []

/-- The registers after reset satisfy the invariants of R22. -/
def Obligations.ResetSatisfiesTheInvariant : Prop := RegsInv State.reset.regs

/-- Every step of either agent, from any state that satisfies the invariants of R22, keeps them. -/
def Obligations.EveryStepKeepsTheInvariant : Prop :=
  ∀ s t : State, RegsInv s.regs → step s = .next t → RegsInv t.regs

/-- R22: in every reachable state. -/
def Obligations.ReachableStatesSatisfyTheInvariant : Prop :=
  ∀ s : State, Reachable s →
    (s.regs.phase = .refill ↔ 0 < s.regs.pend.toNat) ∧ s.regs.pend.toNat ≤ 26 ∧ s.regs.koff.toNat ≤ 25 ∧
    (s.regs.ff = true → s.regs.koff = 0) ∧
    (s.regs.phase = .refill → ∀ i : Fin Config.frameLen, 26 - s.regs.pend.toNat ≤ i.val → s.regs.win[i] = none) ∧
    (s.regs.ok = true → ∃ f : Frame, (∀ i : Fin Config.frameLen, s.regs.win[i] = some f[i]) ∧
      f[25] = sum8 (f.toList.take 25) ∧ s.regs.csum = f[25])

/-! ### RD, WR, CLEAR -/

/-- A RD that does not fault returns the register's byte to the host and changes nothing else: a WIN cell while
PHASE = IDLE, the four read-only registers in either phase (42_host_access.md section 1; `returned` is log entry 5). -/
def Obligations.ReadReturnsTheRegister : Prop :=
  ∀ (s : State) (off : Off) (data b : Byte),
    ((∃ i : Fin Config.frameLen, off.toNat = i.val ∧ s.regs.phase = .idle ∧ s.regs.win[i] = some b) ∨
      (off = 0x1A ∧ b = s.regs.csum) ∨ (off = 0x1B ∧ b = statByte s.regs) ∨
      (off = 0x1C ∧ b = koffByte s.regs) ∨ (off = 0x1D ∧ b = pendByte s.regs)) →
    exec (.rd off data) s = .next { s with returned := s.returned ++ [b] }

/-- The bits STAT, KOFF and PEND read as: OK, FF and BUSY in STAT bits 0, 1, 2, the numbers K and PEND in bits 4:0, and
0 in every reserved bit (10_state.md section 3, R14 to R16). -/
def Obligations.ReadOnlyRegistersHaveTheirBits : Prop :=
  ∀ r : Regs,
    (∀ j, (statByte r).getLsbD j =
      if j = 0 then r.ok else if j = 1 then r.ff else if j = 2 then decide (r.phase = .refill) else false) ∧
    (∀ j, (koffByte r).getLsbD j = if j < 5 then r.koff.getLsbD j else false) ∧
    (∀ j, (pendByte r).getLsbD j = if j < 5 then r.pend.getLsbD j else false)

/-- Where a RD faults: BusError by the offset alone, then Busy with the bus word, then UnwrittenByte of the cell
(42_host_access.md section 1, 60_exceptions.md section 3; log entry 2). -/
def Obligations.ReadFaultsByOffsetThenPhaseThenCell : Prop :=
  ∀ (s : State) (off : Off) (data : Byte),
    ((off = 0x1E ∨ off = 0x1F) →
      exec (.rd off data) s = .next { s with faults := s.faults ++ [.busError off] }) ∧
    (∀ i : Fin Config.frameLen, off.toNat = i.val → s.regs.phase = .refill →
      exec (.rd off data) s = .next { s with faults := s.faults ++ [.busy (busWord false off data)] }) ∧
    (∀ i : Fin Config.frameLen, off.toNat = i.val → s.regs.phase = .idle → s.regs.win[i] = none →
      exec (.rd off data) s = .next { s with faults := s.faults ++ [.unwrittenByte i] })

/-- The DATA bits of a read word have no effect on anything but the word a Busy fault records (R45; log entry 6). -/
def Obligations.ReadIgnoresItsDataBits : Prop :=
  ∀ (s t u : State) (off : Off) (d e : Byte),
    exec (.rd off d) s = .next t → exec (.rd off e) s = .next u →
    t.regs = u.regs ∧ t.returned = u.returned ∧ t.channel = u.channel ∧ t.events = u.events ∧
      t.faults.length = u.faults.length ∧ (s.regs.phase = .idle → t = u)

/-- A WR of a WIN cell while PHASE = IDLE writes that cell, clears STAT.OK and changes nothing else
(42_host_access.md section 2). -/
def Obligations.WriteStoresTheByteAndClearsOk : Prop :=
  ∀ (s : State) (off : Fin 31) (data : Byte) (i : Fin Config.frameLen), off.val = i.val → s.regs.phase = .idle →
    ∃ t, exec (.wr off data) s = .next t ∧
      t.regs.win[i] = some data ∧ (∀ j : Fin Config.frameLen, j ≠ i → t.regs.win[j] = s.regs.win[j]) ∧
      t = { s with regs := { s.regs with win := t.regs.win, ok := false } }

/-- Where a WR faults: BusError for 0x1A..0x1E in either phase, Busy for a WIN offset during a refill
(42_host_access.md section 2, 60_exceptions.md section 3; log entry 2). -/
def Obligations.WriteFaultsByOffsetThenPhase : Prop :=
  ∀ (s : State) (off : Fin 31) (data : Byte),
    (26 ≤ off.val →
      exec (.wr off data) s = .next { s with faults := s.faults ++ [.busError (BitVec.ofNat 5 off.val)] }) ∧
    (off.val < 26 → s.regs.phase = .refill →
      exec (.wr off data) s =
        .next { s with faults := s.faults ++ [.busy (busWord true (BitVec.ofNat 5 off.val) data)] })

/-- R30: a RD changes no state of CKFA, and a WR repeated with the same value leaves the same state. -/
def Obligations.ReadsAndRepeatedWritesHaveNoFurtherEffect : Prop :=
  (∀ (s t : State) (off : Off) (data : Byte), exec (.rd off data) s = .next t →
    t.regs = s.regs ∧ t.channel = s.channel ∧ t.events = s.events) ∧
  (∀ (s t : State) (off : Fin 31) (data : Byte), exec (.wr off data) s = .next t → t.faults = s.faults →
    exec (.wr off data) t = .next t)

/-- CLEAR, in either phase: PEND, PHASE, STAT.OK, STAT.FF and K to their reset values; WIN, CSUM, the fault record and
the channel unchanged (42_host_access.md section 3). -/
def Obligations.ClearEndsTheRefillAndKeepsTheWindow : Prop :=
  ∀ s : State, exec .clear s =
    .next { s with regs :=
      { win := s.regs.win, csum := s.regs.csum, ok := false, ff := false, koff := 0, pend := 0, phase := .idle } }

/-! ### The checksum, GEN, VERIFY -/

/-- R56: the unreduced sum of 25 bytes is at most 6375, and its reduction is the 8-bit wrapping sum of the bytes in any
order. -/
def Obligations.ChecksumIsAnEightBitSumInAnyOrder : Prop :=
  ∀ xs : List Byte, xs.length = 25 →
    (xs.map BitVec.toNat).sum ≤ 6375 ∧
    (∀ ys : List Byte, ys.Perm xs → ys.foldl (fun acc b => acc + b) 0 = sum8 xs) ∧
    (sum8 xs).toNat = (xs.map BitVec.toNat).sum % 256

/-- R57: a valid frame with exactly one byte replaced is not valid; a reordering of bytes 0..24, and a pair of changes
+d and -d at two of them, leave the checksum as it was. -/
def Obligations.OneByteCorruptionIsDetected : Prop :=
  (∀ (f g : Frame) (j : Fin Config.frameLen), frameValid f = true → g[j] ≠ f[j] →
    (∀ i : Fin Config.frameLen, i ≠ j → g[i] = f[i]) → frameValid g = false) ∧
  (∀ f g : Frame, (g.toList.take 25).Perm (f.toList.take 25) → frameSum g = frameSum f) ∧
  (∀ (f g : Frame) (i j : Fin Config.frameLen) (d : Byte), i.val < 25 → j.val < 25 → i ≠ j →
    g[i] = f[i] + d → g[j] = f[j] - d → (∀ m : Fin Config.frameLen, m ≠ i → m ≠ j → g[m] = f[m]) →
    frameSum g = frameSum f)

/-- GEN with a legal LEN, PHASE = IDLE and its operand cells written: the marker, the operands kept, zeros to offset 24,
the checksum at 25 and in CSUM, STAT.OK cleared, and nothing else changed (40_checksum.md section 2). -/
def Obligations.GenBuildsTheFrame : Prop :=
  ∀ (s : State) (len : BitVec 5), len.toNat ≤ 20 → s.regs.phase = .idle →
    (∀ i : Fin Config.frameLen, 1 ≤ i.val → i.val < 3 + len.toNat → s.regs.win[i] ≠ none) →
    ∃ (t : State) (f : Frame), exec (.gen len) s = .next t ∧ (∀ i : Fin Config.frameLen, t.regs.win[i] = some f[i]) ∧
      f[0] = 0xAA ∧
      (∀ i : Fin Config.frameLen, 1 ≤ i.val → i.val < 3 + len.toNat → some f[i] = s.regs.win[i]) ∧
      (∀ i : Fin Config.frameLen, 3 + len.toNat ≤ i.val → i.val < 25 → f[i] = 0x00) ∧
      f[25] = sum8 (f.toList.take 25) ∧
      t = { s with regs := { s.regs with win := t.regs.win, csum := f[25], ok := false } }

/-- Where GEN faults: LenRange, then Busy with the bus word, then UnwrittenByte of the lowest unwritten operand cell
(40_checksum.md section 2, 60_exceptions.md section 3; log entry 2). -/
def Obligations.GenFaultsByLengthThenPhaseThenCell : Prop :=
  ∀ (s : State) (len : BitVec 5),
    (20 < len.toNat → exec (.gen len) s = .next { s with faults := s.faults ++ [.lenRange len] }) ∧
    (len.toNat ≤ 20 → s.regs.phase = .refill → exec (.gen len) s =
      .next { s with faults := s.faults ++ [.busy (busWord true 0x1F (cmdByte len 1))] }) ∧
    (∀ i : Fin Config.frameLen, len.toNat ≤ 20 → s.regs.phase = .idle → 1 ≤ i.val → i.val < 3 + len.toNat →
      s.regs.win[i] = none → (∀ j : Fin Config.frameLen, 1 ≤ j.val → j.val < i.val → s.regs.win[j] ≠ none) →
      exec (.gen len) s = .next { s with faults := s.faults ++ [.unwrittenByte i] })

/-- R59: after a GEN that does not fault, WIN holds a valid frame with the marker, the host's bytes and zeros, and a
VERIFY issued next sets STAT.OK to 1. -/
def Obligations.GenThenVerifySucceeds : Prop :=
  ∀ (s t : State) (len : BitVec 5), exec (.gen len) s = .next t → t.faults = s.faults →
    ∃ f : Frame, (∀ i : Fin Config.frameLen, t.regs.win[i] = some f[i]) ∧ frameValid f = true ∧ f[0] = 0xAA ∧
      (∀ i : Fin Config.frameLen, 1 ≤ i.val → i.val < 3 + len.toNat → some f[i] = s.regs.win[i]) ∧
      (∀ i : Fin Config.frameLen, 3 + len.toNat ≤ i.val → i.val < 25 → f[i] = 0x00) ∧
      ∃ u, exec .verify t = .next u ∧ u.regs.ok = true ∧ u.faults = t.faults

/-- VERIFY of a window that holds the frame `f`, PHASE = IDLE: CSUM is the sum of bytes 0..24, STAT.OK says whether it
is byte 25, and nothing else changes (40_checksum.md section 3). -/
def Obligations.VerifyComparesTheSumWithByte25 : Prop :=
  ∀ (s : State) (f : Frame), s.regs.phase = .idle → (∀ i : Fin Config.frameLen, s.regs.win[i] = some f[i]) →
    exec .verify s = .next { s with regs :=
      { s.regs with csum := sum8 (f.toList.take 25), ok := decide (sum8 (f.toList.take 25) = f[25]) } }

/-- VERIFY and ALIGN read all 26 cells: the lowest unwritten one is the fault (R12, 40_checksum.md section 3,
41_frame_aligner.md section 2; log entry 2). -/
def Obligations.VerifyAndAlignFaultOnTheLowestUnwrittenCell : Prop :=
  ∀ (s : State) (i : Fin Config.frameLen), s.regs.phase = .idle → s.regs.win[i] = none →
    (∀ j : Fin Config.frameLen, j < i → s.regs.win[j] ≠ none) →
    exec .verify s = .next { s with faults := s.faults ++ [.unwrittenByte i] } ∧
    exec .align s = .next { s with faults := s.faults ++ [.unwrittenByte i] }

/-! ### CAPTURE, ALIGN, RX -/

/-- CAPTURE while PHASE = IDLE: every cell unwritten, 26 bytes pending, REFILL, the flags and K cleared; CSUM and all
else unchanged (41_frame_aligner.md section 1). -/
def Obligations.CaptureEmptiesTheWindowAndStartsARefill : Prop :=
  ∀ s : State, s.regs.phase = .idle →
    ∃ t, exec .capture s = .next t ∧ (∀ i : Fin Config.frameLen, t.regs.win[i] = none) ∧ t.regs.pend.toNat = 26 ∧
      t = { s with regs := { s.regs with
        win := t.regs.win, ok := false, ff := false, koff := 0, pend := t.regs.pend, phase := .refill } }

/-- R65: the marker search finds the lowest offset holding 0xAA, and fails iff none of the 26 holds it. -/
def Obligations.MarkerSearchFindsTheLowestMarker : Prop :=
  ∀ w : Window,
    (∀ k : Fin Config.frameLen, findMarker w = some k ↔
      w[k] = some 0xAA ∧ ∀ j : Fin Config.frameLen, j < k → w[j] ≠ some 0xAA) ∧
    (findMarker w = none ↔ ∀ i : Fin Config.frameLen, w[i] ≠ some 0xAA)

/-- ALIGN of a window whose first marker stands at `k`: the `k` bytes before it are dropped, the `k` trailing cells are
unwritten, K is `k`, and a refill of `k` bytes is pending iff `k > 0`; CSUM and all else unchanged
(41_frame_aligner.md section 2). -/
def Obligations.AlignShiftsToTheFirstMarker : Prop :=
  ∀ (s : State) (f : Frame) (k : Fin Config.frameLen), s.regs.phase = .idle →
    (∀ i : Fin Config.frameLen, s.regs.win[i] = some f[i]) → f[k] = 0xAA →
    (∀ j : Fin Config.frameLen, j < k → f[j] ≠ 0xAA) →
    ∃ t, exec .align s = .next t ∧
      (∀ i j : Fin Config.frameLen, j.val = i.val + k.val → t.regs.win[i] = some f[j]) ∧
      (∀ i : Fin Config.frameLen, 26 ≤ i.val + k.val → t.regs.win[i] = none) ∧
      t = { s with regs := { s.regs with
        win := t.regs.win, ok := false, ff := false, koff := BitVec.ofNat 5 k.val,
        pend := if k.val = 0 then s.regs.pend else BitVec.ofNat 5 k.val,
        phase := if k.val = 0 then .idle else .refill } }

/-- R79: an ALIGN that finds no marker sets STAT.FF and KOFF = 0 and leaves WIN unchanged; it is no model fault, and
only ALIGN sets STAT.FF. -/
def Obligations.AlignWithoutMarkerIsAFramingFailure : Prop :=
  (∀ (s : State) (f : Frame), s.regs.phase = .idle → (∀ i : Fin Config.frameLen, s.regs.win[i] = some f[i]) →
    (∀ i : Fin Config.frameLen, f[i] ≠ 0xAA) →
    exec .align s = .next { s with regs := { s.regs with ok := false, ff := true, koff := 0 } }) ∧
  (∀ (i : Instr) (s t : State), exec i s = .next t → s.regs.ff = false → t.regs.ff = true → i = .align)

/-- An RX byte offered while PHASE = REFILL is accepted: it leaves the channel, is written at `26 - PEND`, one byte
fewer is pending, IDLE after the last, STAT.OK cleared, and nothing else changed (41_frame_aligner.md section 3). -/
def Obligations.RxFillsTheNextCell : Prop :=
  ∀ (s : State) (b : Byte) (rest : List Byte) (i : Fin Config.frameLen),
    s.regs.phase = .refill → s.channel = b :: rest → s.regs.pend.toNat = 26 - i.val →
    ∃ t, exec (.rx b) s = .next t ∧ t.regs.win[i] = some b ∧
      (∀ j : Fin Config.frameLen, j ≠ i → t.regs.win[j] = s.regs.win[j]) ∧
      t.regs.pend.toNat = 25 - i.val ∧
      t = { s with channel := rest, regs := { s.regs with
        win := t.regs.win, ok := false, pend := t.regs.pend, phase := if i.val = 25 then .idle else .refill } }

/-- An RX byte offered while PHASE = IDLE is not accepted: nothing changes and the byte stays in the channel
(41_frame_aligner.md section 3; that the hold is a next state is log entry 3). An offer of an empty channel during a
refill changes nothing but that its event is spent. -/
def Obligations.RxHoldsWhileIdleAndRefillWaits : Prop :=
  (∀ (s : State) (b : Byte), s.regs.phase = .idle → exec (.rx b) s = .next s) ∧
  (∀ (s : State) (es : List Event), s.events = .rxOffer :: es → s.channel = [] →
    step s = .next { s with events := es })

/-- No RX transfer raises a model fault (60_exceptions.md section 2), in either phase. -/
def Obligations.RxRaisesNoFault : Prop :=
  ∀ (s t : State) (es : List Event), s.events = .rxOffer :: es → step s = .next t → t.faults = s.faults

/-- A refill ends: with `n` bytes pending and at least `n` bytes in the channel, `n` offers fill the trailing `n` cells
in order, end in IDLE, and change no other cell, flag or register (10_state.md section 5, R20, and R67: no rescan). -/
def Obligations.RefillTakesThePendingBytesInOrder : Prop :=
  ∀ (s : State) (bs rest : List Byte) (es : List Event), s.regs.phase = .refill → s.regs.pend.toNat = bs.length →
    1 ≤ bs.length → bs.length ≤ 26 → s.channel = bs ++ rest →
    s.events = List.replicate bs.length .rxOffer ++ es →
    ∃ t, runFor bs.length s = .next t ∧
      (∀ (i : Fin Config.frameLen) (j : Nat) (h : j < bs.length), i.val = 26 - bs.length + j →
        t.regs.win[i] = some bs[j]) ∧
      (∀ i : Fin Config.frameLen, i.val < 26 - bs.length → t.regs.win[i] = s.regs.win[i]) ∧
      t = { s with channel := rest, events := es, regs := { s.regs with
        win := t.regs.win, ok := false, pend := 0, phase := .idle } }

/-- The channel loses, duplicates and reorders no byte: a step leaves it as it was, or takes its oldest byte, which only
an RX offer during a refill does (20_memory.md section 6). -/
def Obligations.ChannelBytesAreTakenInOrderOnlyInRefill : Prop :=
  ∀ s t : State, step s = .next t →
    t.channel = s.channel ∨
    ∃ b, s.channel = b :: t.channel ∧ s.regs.phase = .refill ∧ s.events.head? = some .rxOffer

/-! ### The whole machine -/

/-- While PHASE = REFILL, every operation on the window but RX raises Busy with its own bus word and changes nothing
else (20_memory.md section 2, 70_reset_and_hazards.md section 3; log entry 2). -/
def Obligations.RefillWindowIsClosedToTheHost : Prop :=
  ∀ (s : State) (i : Instr) (w : BusWord), s.regs.phase = .refill → needsIdle i = true → encode i = .bus w →
    exec i s = .next { s with faults := s.faults ++ [.busy w] }

/-- Only CLEAR and RX change the registers of CKFA while PHASE = REFILL (70_reset_and_hazards.md section 3). -/
def Obligations.OnlyClearAndRxActDuringARefill : Prop :=
  ∀ (s t : State) (i : Instr), s.regs.phase = .refill → exec i s = .next t → t.regs ≠ s.regs →
    i = .clear ∨ ∃ b, i = .rx b

/-- Which operations write which register (R13 to R17): an operation that changes one is among those the spec names for
it. -/
def Obligations.OnlyTheNamedOperationsWriteEachRegister : Prop :=
  ∀ (i : Instr) (s t : State), exec i s = .next t →
    (t.regs.csum ≠ s.regs.csum → i = .verify ∨ ∃ len, i = .gen len) ∧
    (s.regs.ok = false → t.regs.ok = true → i = .verify) ∧
    (t.regs.ff ≠ s.regs.ff ∨ t.regs.koff ≠ s.regs.koff → i = .align ∨ i = .capture ∨ i = .clear) ∧
    (t.regs.pend ≠ s.regs.pend ∨ t.regs.phase ≠ s.regs.phase →
      i = .align ∨ i = .capture ∨ i = .clear ∨ ∃ b, i = .rx b) ∧
    (t.regs.win ≠ s.regs.win →
      i = .align ∨ i = .capture ∨ (∃ len, i = .gen len) ∨ (∃ off data, i = .wr off data) ∨ ∃ b, i = .rx b) ∧
    (t.returned ≠ s.returned → ∃ off data, i = .rd off data)

/-- A step that changes any cell of WIN leaves STAT.OK = 0, so that STAT.OK = 1 always describes the window as it stands
(10_state.md section 3, 70_reset_and_hazards.md section 3). -/
def Obligations.ChangedWindowHasOkClear : Prop :=
  ∀ s t : State, step s = .next t → t.regs.win ≠ s.regs.win → t.regs.ok = false

/-- R84: an RX byte and a CLEAR during a refill, in either order: the byte is written and the refill then ended, or the
refill is ended and the byte left in the channel. -/
def Obligations.ClearAndRxInEitherOrder : Prop :=
  ∀ (s : State) (b : Byte) (rest : List Byte) (es : List Event) (i : Fin Config.frameLen),
    s.regs.phase = .refill → s.regs.pend.toNat = 26 - i.val → s.channel = b :: rest →
    (∃ t, runFor 2 { s with events := .rxOffer :: .host 0x3F00 :: es } = .next t ∧ t.regs.win[i] = some b ∧
      t.channel = rest ∧ t.regs.phase = .idle ∧ t.regs.pend = 0 ∧ t.faults = s.faults) ∧
    (∃ t, runFor 2 { s with events := .host 0x3F00 :: .rxOffer :: es } = .next t ∧ t.regs.win = s.regs.win ∧
      t.channel = b :: rest ∧ t.regs.phase = .idle ∧ t.regs.pend = 0 ∧ t.faults = s.faults)

/-- R63: ENCODE of any address, command and payload of at most 20 bytes, then DECODE, returns checksumOk = 1, the
command, and the payload padded with zeros, and raises no fault. -/
def Obligations.DecodeReturnsWhatEncodeWasGiven : Prop :=
  ∀ (s : State) (a c : Byte) (p : List Byte) (es : List Event), s.regs.phase = .idle → p.length ≤ 20 →
    s.events = (encodeSeq a c p ++ decodeSeq).map eventOf ++ es →
    ∃ (t : State) (stat : Byte), runFor (encodeSeq a c p ++ decodeSeq).length s = .next t ∧
      t.returned = s.returned ++ [stat, c] ++ p ++ List.replicate (20 - p.length) 0x00 ∧
      stat.getLsbD 0 = true ∧ t.faults = s.faults ∧ t.events = es

/-- R70: a valid frame behind `k` garbage bytes that hold no marker is recovered by CAPTURE, 26 RX bytes, ALIGN and `k`
RX bytes; a VERIFY then gives STAT.OK = 1. -/
def Obligations.FrameBehindGarbageIsRecovered : Prop :=
  ∀ (s : State) (f : Frame) (g rest : List Byte) (es : List Event), s.regs.phase = .idle → frameValid f = true →
    f[0] = 0xAA → g.length ≤ 25 → (0xAA : Byte) ∉ g → s.channel = g ++ f.toList ++ rest →
    s.events = [eventOf .capture] ++ List.replicate 26 .rxOffer ++ [eventOf .align] ++
      List.replicate g.length .rxOffer ++ [eventOf .verify] ++ es →
    ∃ t u : State, runFor (28 + g.length) s = .next t ∧ (∀ i : Fin Config.frameLen, t.regs.win[i] = some f[i]) ∧
      t.regs.koff.toNat = g.length ∧ t.regs.ff = false ∧ t.regs.phase = .idle ∧ t.channel = rest ∧
      t.faults = s.faults ∧ step t = .next u ∧ u.regs.ok = true ∧ u.events = es

/-! ### The host's pseudo-operations -/

/-- LOADWIN then READFRAME (R54): the 26 bytes written are the frame read, and nothing else but STAT.OK changes. -/
def Obligations.LoadWinThenReadFrameReturnsTheFrame : Prop :=
  ∀ (s : State) (f : Frame) (es : List Event), s.regs.phase = .idle →
    s.events = (loadWinSeq f ++ readFrameSeq).map eventOf ++ es →
    ∃ bs : List Byte, readFrameResult bs = some f ∧
      runFor 52 s = .next { s with
        events := es, returned := s.returned ++ bs, regs := { s.regs with win := f.map some, ok := false } }

/-- A run of turns of the host and the RX channel is a run of the machine on the events it gives it, in their one total
order (R3, R35; log entries 1 and 13). -/
def Obligations.TurnsAreARunOfTheMachine : Prop :=
  ∀ (as : List Turn) (r q : HostRun), takeTurns as r = .next q →
    runFor (turnEvents as r).length { r.machine with events := turnEvents as r ++ r.machine.events } = .next q.machine

/-- WAITIDLE (R54): a poll reads STAT, and the host goes on to what follows iff bit 2 of the byte read is 0, which it is
iff PHASE = IDLE; else it polls again. An RX offer between polls leaves the host where it is. -/
def Obligations.WaitIdlePollsUntilBusyIsZero : Prop :=
  (∀ (r : HostRun) (ms : List HostMove), r.moves = .waitIdle :: ms →
    takeTurn .host r = .next { r with
      machine := { r.machine with returned := r.machine.returned ++ [statByte r.machine.regs] }
      moves := if (statByte r.machine.regs).getLsbD 2 = false then ms else .waitIdle :: ms }) ∧
  (∀ r : Regs, (statByte r).getLsbD 2 = false ↔ r.phase = .idle) ∧
  (∀ r q : HostRun, takeTurn .rx r = .next q → q.moves = r.moves ∧ q.framingFailure = r.framingFailure)

/-- RECEIVE's read of STAT after ALIGN (R54): it stops, with nothing left to do, iff bit 1 of the byte read is 1, which it
is iff STAT.FF = 1; else it goes on. -/
def Obligations.ReceiveStopsIffFramingFailure : Prop :=
  (∀ (r : HostRun) (ms : List HostMove), r.moves = .stopAtFramingFailure :: ms →
    takeTurn .host r = .next
      { machine := { r.machine with returned := r.machine.returned ++ [statByte r.machine.regs] }
        moves := if (statByte r.machine.regs).getLsbD 1 = true then [] else ms
        framingFailure := r.framingFailure || (statByte r.machine.regs).getLsbD 1 }) ∧
  (∀ r : Regs, (statByte r).getLsbD 1 = r.ff)

/-- RECEIVE (R54) of a valid frame behind garbage that holds no marker, in every order of the host's and the RX channel's
turns: it never stops at a framing failure, and where it ends it has returned the frame's command, payload and
checksumOk = 1, with the frame in WIN, IDLE, no fault and no byte after the frame taken. Some order ends it. -/
def Obligations.ReceiveReturnsTheFrameInEveryOrderOfTurns : Prop :=
  ∀ (s : State) (f : Frame) (g rest : List Byte), s.regs.phase = .idle → frameValid f = true → f[0] = 0xAA →
    g.length ≤ 25 → (0xAA : Byte) ∉ g → s.channel = g ++ f.toList ++ rest →
    (∀ as : List Turn, ∃ q : HostRun, takeTurns as (startHostRun receiveMoves s) = .next q ∧ q.framingFailure = false ∧
      (q.moves = [] →
        (∀ i : Fin Config.frameLen, q.machine.regs.win[i] = some f[i]) ∧ q.machine.regs.koff.toNat = g.length ∧
        q.machine.regs.phase = .idle ∧ q.machine.channel = rest ∧ q.machine.faults = s.faults ∧
        ∃ polls bs : List Byte, q.machine.returned = s.returned ++ polls ++ bs ∧
          decodeResult bs =
            some ⟨f[2], Vector.ofFn fun j : Fin Config.payLen => f[3 + j.val]'(Nat.add_lt_add_left j.isLt 3 |>.trans (by decide)), true⟩)) ∧
    (∃ (as : List Turn) (q : HostRun), takeTurns as (startHostRun receiveMoves s) = .next q ∧ q.moves = [])
end

