-- ==== Sys2Proof/Laws/State.lean ====
section
/-! SUPPORT. One lemma per field per update of the state, true by unfolding. -/

namespace Sys2Proof.Machine

/-! ### State -/

@[simp] theorem setRegs_regs (r : Regs) (s : State) :
    (setRegs r s).regs = r := rfl

@[simp] theorem setRegs_faults (r : Regs) (s : State) :
    (setRegs r s).faults = s.faults := rfl

@[simp] theorem setRegs_returned (r : Regs) (s : State) :
    (setRegs r s).returned = s.returned := rfl

@[simp] theorem setRegs_channel (r : Regs) (s : State) :
    (setRegs r s).channel = s.channel := rfl

@[simp] theorem setRegs_events (r : Regs) (s : State) :
    (setRegs r s).events = s.events := rfl

@[simp] theorem recordFault_regs (f : ModelFault) (s : State) :
    (recordFault f s).regs = s.regs := rfl

@[simp] theorem recordFault_faults (f : ModelFault) (s : State) :
    (recordFault f s).faults = s.faults ++ [f] := rfl

@[simp] theorem recordFault_returned (f : ModelFault) (s : State) :
    (recordFault f s).returned = s.returned := rfl

@[simp] theorem recordFault_channel (f : ModelFault) (s : State) :
    (recordFault f s).channel = s.channel := rfl

@[simp] theorem recordFault_events (f : ModelFault) (s : State) :
    (recordFault f s).events = s.events := rfl

@[simp] theorem returnByte_regs (b : Byte) (s : State) :
    (returnByte b s).regs = s.regs := rfl

@[simp] theorem returnByte_faults (b : Byte) (s : State) :
    (returnByte b s).faults = s.faults := rfl

@[simp] theorem returnByte_returned (b : Byte) (s : State) :
    (returnByte b s).returned = s.returned ++ [b] := rfl

@[simp] theorem returnByte_channel (b : Byte) (s : State) :
    (returnByte b s).channel = s.channel := rfl

@[simp] theorem returnByte_events (b : Byte) (s : State) :
    (returnByte b s).events = s.events := rfl

@[simp] theorem takeFromChannel_regs (s : State) :
    (takeFromChannel s).regs = s.regs := rfl

@[simp] theorem takeFromChannel_faults (s : State) :
    (takeFromChannel s).faults = s.faults := rfl

@[simp] theorem takeFromChannel_returned (s : State) :
    (takeFromChannel s).returned = s.returned := rfl

@[simp] theorem takeFromChannel_channel (s : State) :
    (takeFromChannel s).channel = s.channel.tail := rfl

@[simp] theorem takeFromChannel_events (s : State) :
    (takeFromChannel s).events = s.events := rfl

/-! ### Regs -/

@[simp] theorem setWindow_win (w : Window) (r : Regs) :
    (setWindow w r).win = w := rfl

@[simp] theorem setWindow_csum (w : Window) (r : Regs) :
    (setWindow w r).csum = r.csum := rfl

@[simp] theorem setWindow_ok (w : Window) (r : Regs) :
    (setWindow w r).ok = false := rfl

@[simp] theorem setWindow_ff (w : Window) (r : Regs) :
    (setWindow w r).ff = r.ff := rfl

@[simp] theorem setWindow_koff (w : Window) (r : Regs) :
    (setWindow w r).koff = r.koff := rfl

@[simp] theorem setWindow_pend (w : Window) (r : Regs) :
    (setWindow w r).pend = r.pend := rfl

@[simp] theorem setWindow_phase (w : Window) (r : Regs) :
    (setWindow w r).phase = r.phase := rfl

@[simp] theorem writeCell_win (i : Nat) (b : Byte) (r : Regs) :
    (writeCell i b r).win = r.win.setIfInBounds i (some b) := rfl

@[simp] theorem writeCell_csum (i : Nat) (b : Byte) (r : Regs) :
    (writeCell i b r).csum = r.csum := rfl

@[simp] theorem writeCell_ok (i : Nat) (b : Byte) (r : Regs) :
    (writeCell i b r).ok = false := rfl

@[simp] theorem writeCell_ff (i : Nat) (b : Byte) (r : Regs) :
    (writeCell i b r).ff = r.ff := rfl

@[simp] theorem writeCell_koff (i : Nat) (b : Byte) (r : Regs) :
    (writeCell i b r).koff = r.koff := rfl

@[simp] theorem writeCell_pend (i : Nat) (b : Byte) (r : Regs) :
    (writeCell i b r).pend = r.pend := rfl

@[simp] theorem writeCell_phase (i : Nat) (b : Byte) (r : Regs) :
    (writeCell i b r).phase = r.phase := rfl

@[simp] theorem startRefill_win (n : BitVec 5) (r : Regs) :
    (startRefill n r).win = r.win := rfl

@[simp] theorem startRefill_csum (n : BitVec 5) (r : Regs) :
    (startRefill n r).csum = r.csum := rfl

@[simp] theorem startRefill_ok (n : BitVec 5) (r : Regs) :
    (startRefill n r).ok = r.ok := rfl

@[simp] theorem startRefill_ff (n : BitVec 5) (r : Regs) :
    (startRefill n r).ff = r.ff := rfl

@[simp] theorem startRefill_koff (n : BitVec 5) (r : Regs) :
    (startRefill n r).koff = r.koff := rfl

@[simp] theorem startRefill_pend (n : BitVec 5) (r : Regs) :
    (startRefill n r).pend = n := rfl

@[simp] theorem startRefill_phase (n : BitVec 5) (r : Regs) :
    (startRefill n r).phase = .refill := rfl

@[simp] theorem endRefill_win (r : Regs) :
    (endRefill r).win = r.win := rfl

@[simp] theorem endRefill_csum (r : Regs) :
    (endRefill r).csum = r.csum := rfl

@[simp] theorem endRefill_ok (r : Regs) :
    (endRefill r).ok = r.ok := rfl

@[simp] theorem endRefill_ff (r : Regs) :
    (endRefill r).ff = r.ff := rfl

@[simp] theorem endRefill_koff (r : Regs) :
    (endRefill r).koff = r.koff := rfl

@[simp] theorem endRefill_pend (r : Regs) :
    (endRefill r).pend = 0 := rfl

@[simp] theorem endRefill_phase (r : Regs) :
    (endRefill r).phase = .idle := rfl

@[simp] theorem countRefill_win (r : Regs) :
    (countRefill r).win = r.win := rfl

@[simp] theorem countRefill_csum (r : Regs) :
    (countRefill r).csum = r.csum := rfl

@[simp] theorem countRefill_ok (r : Regs) :
    (countRefill r).ok = r.ok := rfl

@[simp] theorem countRefill_ff (r : Regs) :
    (countRefill r).ff = r.ff := rfl

@[simp] theorem countRefill_koff (r : Regs) :
    (countRefill r).koff = r.koff := rfl

@[simp] theorem countRefill_pend (r : Regs) :
    (countRefill r).pend = r.pend - 1 := rfl

@[simp] theorem countRefill_phase (r : Regs) :
    (countRefill r).phase = if r.pend - 1 = 0 then .idle else r.phase := rfl

@[simp] theorem setAlignResult_win (ff : Bool) (k : BitVec 5) (r : Regs) :
    (setAlignResult ff k r).win = r.win := rfl

@[simp] theorem setAlignResult_csum (ff : Bool) (k : BitVec 5) (r : Regs) :
    (setAlignResult ff k r).csum = r.csum := rfl

@[simp] theorem setAlignResult_ok (ff : Bool) (k : BitVec 5) (r : Regs) :
    (setAlignResult ff k r).ok = r.ok := rfl

@[simp] theorem setAlignResult_ff (ff : Bool) (k : BitVec 5) (r : Regs) :
    (setAlignResult ff k r).ff = ff := rfl

@[simp] theorem setAlignResult_koff (ff : Bool) (k : BitVec 5) (r : Regs) :
    (setAlignResult ff k r).koff = k := rfl

@[simp] theorem setAlignResult_pend (ff : Bool) (k : BitVec 5) (r : Regs) :
    (setAlignResult ff k r).pend = r.pend := rfl

@[simp] theorem setAlignResult_phase (ff : Bool) (k : BitVec 5) (r : Regs) :
    (setAlignResult ff k r).phase = r.phase := rfl

@[simp] theorem verifyRegs_win (r : Regs) :
    (verifyRegs r).win = r.win := by
  cases r; rfl

@[simp] theorem verifyRegs_csum (r : Regs) :
    (verifyRegs r).csum = windowSum r.win := by
  cases r; rfl

@[simp] theorem verifyRegs_ok (r : Regs) :
    (verifyRegs r).ok = (checksumCell r.win == some (windowSum r.win)) := by
  cases r; rfl

@[simp] theorem verifyRegs_ff (r : Regs) :
    (verifyRegs r).ff = r.ff := by
  cases r; rfl

@[simp] theorem verifyRegs_koff (r : Regs) :
    (verifyRegs r).koff = r.koff := by
  cases r; rfl

@[simp] theorem verifyRegs_pend (r : Regs) :
    (verifyRegs r).pend = r.pend := by
  cases r; rfl

@[simp] theorem verifyRegs_phase (r : Regs) :
    (verifyRegs r).phase = r.phase := by
  cases r; rfl

@[simp] theorem genRegs_win (len : Nat) (r : Regs) :
    (genRegs len r).win = genWindow len r.win := by
  cases r; rfl

@[simp] theorem genRegs_csum (len : Nat) (r : Regs) :
    (genRegs len r).csum = windowSum (genBody len r.win) := by
  cases r; rfl

@[simp] theorem genRegs_ok (len : Nat) (r : Regs) :
    (genRegs len r).ok = false := by
  cases r; rfl

@[simp] theorem genRegs_ff (len : Nat) (r : Regs) :
    (genRegs len r).ff = r.ff := by
  cases r; rfl

@[simp] theorem genRegs_koff (len : Nat) (r : Regs) :
    (genRegs len r).koff = r.koff := by
  cases r; rfl

@[simp] theorem genRegs_pend (len : Nat) (r : Regs) :
    (genRegs len r).pend = r.pend := by
  cases r; rfl

@[simp] theorem genRegs_phase (len : Nat) (r : Regs) :
    (genRegs len r).phase = r.phase := by
  cases r; rfl

@[simp] theorem captureRegs_win (r : Regs) :
    (captureRegs r).win = Vector.replicate Config.frameLen none := by
  cases r; rfl

@[simp] theorem captureRegs_csum (r : Regs) :
    (captureRegs r).csum = r.csum := by
  cases r; rfl

@[simp] theorem captureRegs_ok (r : Regs) :
    (captureRegs r).ok = false := by
  cases r; rfl

@[simp] theorem captureRegs_ff (r : Regs) :
    (captureRegs r).ff = false := by
  cases r; rfl

@[simp] theorem captureRegs_koff (r : Regs) :
    (captureRegs r).koff = 0 := by
  cases r; rfl

@[simp] theorem captureRegs_pend (r : Regs) :
    (captureRegs r).pend = 26 := by
  cases r; rfl

@[simp] theorem captureRegs_phase (r : Regs) :
    (captureRegs r).phase = .refill := by
  cases r; rfl

@[simp] theorem rxRegs_win (b : Byte) (r : Regs) :
    (rxRegs b r).win = r.win.setIfInBounds (refillOffset r) (some b) := by
  cases r; rfl

@[simp] theorem rxRegs_csum (b : Byte) (r : Regs) :
    (rxRegs b r).csum = r.csum := by
  cases r; rfl

@[simp] theorem rxRegs_ok (b : Byte) (r : Regs) :
    (rxRegs b r).ok = false := by
  cases r; rfl

@[simp] theorem rxRegs_ff (b : Byte) (r : Regs) :
    (rxRegs b r).ff = r.ff := by
  cases r; rfl

@[simp] theorem rxRegs_koff (b : Byte) (r : Regs) :
    (rxRegs b r).koff = r.koff := by
  cases r; rfl

@[simp] theorem rxRegs_pend (b : Byte) (r : Regs) :
    (rxRegs b r).pend = r.pend - 1 := by
  cases r; rfl

@[simp] theorem rxRegs_phase (b : Byte) (r : Regs) :
    (rxRegs b r).phase = if r.pend - 1 = 0 then .idle else r.phase := by
  cases r; rfl

@[simp] theorem alignRegs_csum (r : Regs) : (alignRegs r).csum = r.csum := by
  unfold alignRegs; split
  · simp
  · split <;> simp

@[simp] theorem alignRegs_ok (r : Regs) : (alignRegs r).ok = false := by
  unfold alignRegs; split
  · simp
  · split <;> simp

/-! ### Reset -/

@[simp] theorem reset_win : Regs.reset.win = Vector.replicate Config.frameLen none := rfl

@[simp] theorem reset_csum : Regs.reset.csum = 0x00 := rfl

@[simp] theorem reset_ok : Regs.reset.ok = false := rfl

@[simp] theorem reset_ff : Regs.reset.ff = false := rfl

@[simp] theorem reset_koff : Regs.reset.koff = 0 := rfl

@[simp] theorem reset_pend : Regs.reset.pend = 0 := rfl

@[simp] theorem reset_phase : Regs.reset.phase = .idle := rfl

end Sys2Proof.Machine
end

