-- ==== Sys2Proof/Laws/Ops.lean ====
section
/-! SUPPORT. For each shared operation, once, everything it can do. -/

namespace Sys2Proof.Machine

/-! ### Outcomes and checks -/

@[simp] theorem commit_done (s t : State) : commit s (.done t) = .next t := rfl

@[simp] theorem commit_modelFault (s : State) (f : ModelFault) :
    commit s (.modelFault f) = .next (recordFault f s) := rfl

@[simp] theorem commit_hold (s : State) : commit s .hold = .next s := rfl

/-- What a committed transaction can be: its own effect, one recorded fault, or nothing. -/
theorem commit_cases {s t : State} {e : Effect} (h : commit s e = .next t) :
    e = .done t ∨ (∃ f, e = .modelFault f ∧ t = recordFault f s) ∨ (e = .hold ∧ t = s) := by
  cases e with
  | done u => left; simpa using h
  | modelFault f => right; left; exact ⟨f, rfl, by simpa using h.symm⟩
  | hold => right; right; exact ⟨rfl, by simpa using h.symm⟩

theorem unlessBusy_idle {s : State} (h : s.regs.phase = .idle) (w : BusWord) (e : Effect) :
    unlessBusy s w e = e := by simp [unlessBusy, h]

theorem unlessBusy_refill {s : State} (h : s.regs.phase = .refill) (w : BusWord) (e : Effect) :
    unlessBusy s w e = .modelFault (.busy w) := by simp [unlessBusy, h]

theorem phase_cases (p : Phase) : p = .idle ∨ p = .refill := by cases p <;> simp

/-- The first unwritten cell is one of the offsets asked for and is `⊥`. -/
theorem firstUnwritten_some {w : Window} {is : List (Fin Config.frameLen)} {i : Fin Config.frameLen}
    (h : firstUnwritten w is = some i) : i ∈ is ∧ w[i] = none :=
  ⟨List.mem_of_find?_eq_some h, by simpa using List.find?_some h⟩

/-- No unwritten cell is found iff all the cells asked for hold bytes. -/
theorem firstUnwritten_eq_none {w : Window} {is : List (Fin Config.frameLen)} :
    firstUnwritten w is = none ↔ ∀ i ∈ is, w[i] ≠ none := by
  simp [firstUnwritten, List.find?_eq_none, Option.isNone_iff_eq_none]

theorem unlessUnwritten_written {s : State} {is : List (Fin Config.frameLen)}
    (h : ∀ i ∈ is, s.regs.win[i] ≠ none) (e : Effect) : unlessUnwritten s is e = e := by
  simp only [unlessUnwritten, firstUnwritten_eq_none.2 h]

theorem unlessUnwritten_first {s : State} {is : List (Fin Config.frameLen)} {i : Fin Config.frameLen}
    (h : firstUnwritten s.regs.win is = some i) (e : Effect) :
    unlessUnwritten s is e = .modelFault (.unwrittenByte i) := by simp only [unlessUnwritten, h]

/-! ### Offsets -/

@[simp] theorem mem_allOffsets (i : Fin Config.frameLen) : i ∈ allOffsets := List.mem_finRange i

@[simp] theorem mem_spanOffsets (i : Fin Config.frameLen) : i ∈ spanOffsets ↔ i.val < 25 := by
  simp [spanOffsets]

@[simp] theorem mem_genOffsets (len : Nat) (i : Fin Config.frameLen) :
    i ∈ genOffsets len ↔ 1 ≤ i.val ∧ i.val < 3 + len := by simp [genOffsets]

/-- An offset below 26 names the window cell of that number (R19). -/
theorem regAt_win {off : Off} (h : off.toNat < Config.frameLen) : regAt off = .win ⟨off.toNat, h⟩ := by
  simp only [regAt, dif_pos h]

/-! ### Window operations -/

/-- Reading the window after one write (R73): the written byte there, the old cell elsewhere. -/
theorem writeCell_get (i : Nat) (b : Byte) (r : Regs) (j : Fin Config.frameLen) :
    (writeCell i b r).win[j] = if i = j.val then some b else r.win[j] := by
  simp [Vector.getElem_setIfInBounds]

/-- Reading the shifted window (R66): the cell `k` further on, or `⊥` in the last `k`. -/
theorem shiftWindow_get (k : Nat) (w : Window) (j : Fin Config.frameLen) :
    (shiftWindow k w)[j] = if h : j.val + k < Config.frameLen then w[j.val + k] else none := by
  simp [shiftWindow]

/-- Reading GEN's window before its checksum (R58). -/
theorem genBody_get (len : Nat) (w : Window) (j : Fin Config.frameLen) :
    (genBody len w)[j] = if j.val = 0 then some 0xAA
      else if 3 + len ≤ j.val ∧ j.val < 25 then some 0x00 else w[j] := by
  simp [genBody]

/-- Reading GEN's window (R58). -/
theorem genWindow_get (len : Nat) (w : Window) (j : Fin Config.frameLen) :
    (genWindow len w)[j] = if j.val = 25 then some (windowSum (genBody len w)) else (genBody len w)[j] := by
  simp only [genWindow, Fin.getElem_fin, Vector.getElem_set, eq_comm]

/-- The marker search finds the lowest offset holding 0xAA (R65). -/
theorem findMarker_some {w : Window} {k : Fin Config.frameLen} (h : findMarker w = some k) :
    w[k] = some 0xAA := by simpa using List.find?_some h

/-- The marker search fails iff no offset holds 0xAA (R65). -/
theorem findMarker_eq_none {w : Window} :
    findMarker w = none ↔ ∀ i : Fin Config.frameLen, w[i] ≠ some 0xAA := by
  simp [findMarker, List.find?_eq_none]

/-! ### The checksum -/

@[simp] theorem sum8_nil : sum8 [] = 0 := rfl

/-- The checksum accumulates byte by byte in eight bits (R56). -/
@[simp] theorem sum8_cons (b : Byte) (xs : List Byte) : sum8 (b :: xs) = b + sum8 xs := by
  apply BitVec.eq_of_toNat_eq
  simp [sum8, BitVec.toNat_add]

@[simp] theorem sum8_append (xs ys : List Byte) : sum8 (xs ++ ys) = sum8 xs + sum8 ys := by
  induction xs with
  | nil => simp
  | cons x xs ih => simp [ih, BitVec.add_assoc]

/-! ### Events -/

theorem fetch_nil {s : State} (h : s.events = []) : fetch s = .nothing := by simp only [fetch, h]

theorem fetch_host {s : State} {w : BusWord} {es : List Event} (h : s.events = .host w :: es) :
    fetch s = .word (.bus w) { s with events := es } := by simp only [fetch, h]

theorem fetch_rxOffer {s : State} {es : List Event} {b : Byte} {bs : List Byte}
    (h : s.events = .rxOffer :: es) (hc : s.channel = b :: bs) :
    fetch s = .word (.rx b) { s with events := es } := by simp only [fetch, h, hc]

theorem fetch_noOffer {s : State} {es : List Event} (h : s.events = .rxOffer :: es) (hc : s.channel = []) :
    fetch s = .noOffer { s with events := es } := by simp only [fetch, h, hc]

/-- A placed word is what the next event brings: a bus word in the state it was placed in. -/
theorem fetch_placeWord_bus (w : BusWord) (s : State) : fetch (placeWord (.bus w) s) = .word (.bus w) s := rfl

/-- A placed RX word is offered with the byte still at the head of the channel. -/
theorem fetch_placeWord_rx (b : Byte) (s : State) :
    fetch (placeWord (.rx b) s) = .word (.rx b) { s with channel := b :: s.channel } := rfl

end Sys2Proof.Machine
end

