-- ==== Sys2Proof/Laws/Word.lean ====
section
/-! SUPPORT. The fields of a word are the fields it was made of, and a word is made of its fields (R45, R47). -/

namespace Sys2Proof

@[simp] theorem busWe_busWord (we : Bool) (off : Off) (data : Byte) : busWe (busWord we off data) = we := by
  simp [busWe, busWord]

@[simp] theorem busOff_busWord (we : Bool) (off : Off) (data : Byte) : busOff (busWord we off data) = off := by
  ext i hi
  interval_cases i <;> simp [busOff, busWord]

@[simp] theorem busData_busWord (we : Bool) (off : Off) (data : Byte) : busData (busWord we off data) = data := by
  ext i hi
  interval_cases i <;> simp [busData, busWord]

theorem busWord_fields (w : BusWord) : busWord (busWe w) (busOff w) (busData w) = w := by
  ext i hi
  interval_cases i <;> simp [busWord, busWe, busOff, busData]

@[simp] theorem cmdOp_cmdByte (arg : BitVec 5) (op : BitVec 3) : cmdOp (cmdByte arg op) = op := by
  ext i hi
  interval_cases i <;> simp [cmdOp, cmdByte]

@[simp] theorem cmdArg_cmdByte (arg : BitVec 5) (op : BitVec 3) : cmdArg (cmdByte arg op) = arg := by
  ext i hi
  interval_cases i <;> simp [cmdArg, cmdByte]

theorem cmdByte_fields (c : Byte) : cmdByte (cmdArg c) (cmdOp c) = c := by
  ext i hi
  interval_cases i <;> simp [cmdByte, cmdArg, cmdOp]

/-- OP has eight values: five operations and the three reserved codes (R47). -/
theorem cmdOp_cases (c : Byte) :
    cmdOp c = 0 ∨ cmdOp c = 1 ∨ cmdOp c = 2 ∨ cmdOp c = 3 ∨ cmdOp c = 4 ∨
      (cmdOp c = 0b101 ∨ cmdOp c = 0b110 ∨ cmdOp c = 0b111) := by
  generalize cmdOp c = op
  revert op
  decide

end Sys2Proof
end

