-- ==== Sys2Proof/Laws/Exec.lean ====
section
/-! SUPPORT. Once, everything an operation and a step can do: the inversion lemmas the proofs cite. -/

namespace Sys2Proof.Machine

/-- What an operation that answers a next state did: its own effect, one recorded fault, or a hold. -/
inductive ExecResult (s : State) : Instr → State → Prop where
  | fault (i : Instr) (f : ModelFault) : ExecResult s i (recordFault f s)
  | hold (b : Byte) (hp : s.regs.phase = .idle) : ExecResult s (.rx b) s
  | rd (off : Off) (data b : Byte) : ExecResult s (.rd off data) (returnByte b s)
  | wr (off : Fin 31) (data : Byte) (hp : s.regs.phase = .idle) (ho : off.val < 26) :
      ExecResult s (.wr off data) (setRegs (writeCell off.val data s.regs) s)
  | clear : ExecResult s .clear (setRegs (setAlignResult false 0 { endRefill s.regs with ok := false }) s)
  | gen (len : BitVec 5) (hl : len.toNat ≤ 20) (hp : s.regs.phase = .idle)
      (hw : ∀ i ∈ genOffsets len.toNat, s.regs.win[i] ≠ none) :
      ExecResult s (.gen len) (setRegs (genRegs len.toNat s.regs) s)
  | verify (hp : s.regs.phase = .idle) (hw : ∀ i ∈ allOffsets, s.regs.win[i] ≠ none) :
      ExecResult s .verify (setRegs (verifyRegs s.regs) s)
  | align (hp : s.regs.phase = .idle) (hw : ∀ i ∈ allOffsets, s.regs.win[i] ≠ none) :
      ExecResult s .align (setRegs (alignRegs s.regs) s)
  | capture (hp : s.regs.phase = .idle) : ExecResult s .capture (setRegs (captureRegs s.regs) s)
  | rx (b : Byte) (hp : s.regs.phase = .refill) :
      ExecResult s (.rx b) (takeFromChannel (setRegs (rxRegs b s.regs) s))

theorem unlessBusy_done {s t : State} {w : BusWord} {e : Effect} (h : unlessBusy s w e = .done t) :
    s.regs.phase = .idle ∧ e = .done t := by
  rcases phase_cases s.regs.phase with hp | hp
  · exact ⟨hp, by rwa [unlessBusy_idle hp] at h⟩
  · rw [unlessBusy_refill hp] at h
    contradiction

theorem unlessBusy_hold {s : State} {w : BusWord} {e : Effect} (h : unlessBusy s w e = .hold) : e = .hold := by
  rcases phase_cases s.regs.phase with hp | hp
  · rwa [unlessBusy_idle hp] at h
  · rw [unlessBusy_refill hp] at h
    contradiction

theorem unlessUnwritten_done {s t : State} {is : List (Fin Config.frameLen)} {e : Effect}
    (h : unlessUnwritten s is e = .done t) : (∀ i ∈ is, s.regs.win[i] ≠ none) ∧ e = .done t := by
  cases hf : firstUnwritten s.regs.win is with
  | some i =>
    rw [unlessUnwritten_first hf] at h
    contradiction
  | none =>
    have hw := firstUnwritten_eq_none.1 hf
    exact ⟨hw, by rwa [unlessUnwritten_written hw] at h⟩

theorem unlessUnwritten_hold {s : State} {is : List (Fin Config.frameLen)} {e : Effect}
    (h : unlessUnwritten s is e = .hold) : e = .hold := by
  cases hf : firstUnwritten s.regs.win is with
  | some i =>
    rw [unlessUnwritten_first hf] at h
    contradiction
  | none => rwa [unlessUnwritten_written (firstUnwritten_eq_none.1 hf)] at h

theorem wrOffset_toNat (off : Fin 31) : (wrOffset off).toNat = off.val := by
  simp only [wrOffset, BitVec.toNat_ofNat]
  omega

theorem regAt_eq_win {off : Off} {i : Fin Config.frameLen} (h : regAt off = .win i) : i.val = off.toNat := by
  unfold regAt at h
  split at h
  · cases h; rfl
  · repeat' split at h
    all_goals cases h

theorem execRd_result {off : Off} {data : Byte} {s t : State} (h : execRd off data s = .next t) :
    ExecResult s (.rd off data) t := by
  rcases commit_cases h with h | ⟨f, -, rfl⟩ | ⟨h, rfl⟩
  · split at h
    · obtain ⟨-, h⟩ := unlessBusy_done h
      split at h <;> cases h
      exact .rd ..
    all_goals
      cases h <;> exact .rd ..
  · exact .fault ..
  · split at h
    · have h := unlessBusy_hold h
      split at h <;> cases h
    all_goals cases h

theorem execWr_result {off : Fin 31} {data : Byte} {s t : State} (h : execWr off data s = .next t) :
    ExecResult s (.wr off data) t := by
  rcases commit_cases h with h | ⟨f, -, rfl⟩ | ⟨h, rfl⟩
  · split at h
    · rename_i i hi
      obtain ⟨hp, h⟩ := unlessBusy_done h
      have hi := (regAt_eq_win hi).trans (wrOffset_toNat off)
      injection h with h
      rw [← h, hi]
      exact .wr _ _ hp (hi ▸ i.isLt)
    · cases h
  · exact .fault ..
  · split at h
    · cases unlessBusy_hold h
    · cases h

theorem execGen_result {len : BitVec 5} {s t : State} (h : execGen len s = .next t) : ExecResult s (.gen len) t := by
  rcases commit_cases h with h | ⟨f, -, rfl⟩ | ⟨h, rfl⟩
  · split at h
    · cases h
    · rename_i hl
      obtain ⟨hp, h⟩ := unlessBusy_done h
      obtain ⟨hw, h⟩ := unlessUnwritten_done h
      injection h with h
      exact h ▸ .gen len (Nat.le_of_not_lt hl) hp hw
  · exact .fault ..
  · split at h
    · cases h
    · cases unlessUnwritten_hold (unlessBusy_hold h)

theorem execVerify_result {s t : State} (h : execVerify s = .next t) : ExecResult s .verify t := by
  rcases commit_cases h with h | ⟨f, -, rfl⟩ | ⟨h, rfl⟩
  · obtain ⟨hp, h⟩ := unlessBusy_done h
    obtain ⟨hw, h⟩ := unlessUnwritten_done h
    injection h with h
    exact h ▸ .verify hp hw
  · exact .fault ..
  · cases unlessUnwritten_hold (unlessBusy_hold h)

theorem execAlign_result {s t : State} (h : execAlign s = .next t) : ExecResult s .align t := by
  rcases commit_cases h with h | ⟨f, -, rfl⟩ | ⟨h, rfl⟩
  · obtain ⟨hp, h⟩ := unlessBusy_done h
    obtain ⟨hw, h⟩ := unlessUnwritten_done h
    injection h with h
    exact h ▸ .align hp hw
  · exact .fault ..
  · cases unlessUnwritten_hold (unlessBusy_hold h)

theorem execCapture_result {s t : State} (h : execCapture s = .next t) : ExecResult s .capture t := by
  rcases commit_cases h with h | ⟨f, -, rfl⟩ | ⟨h, rfl⟩
  · obtain ⟨hp, h⟩ := unlessBusy_done h
    injection h with h
    exact h ▸ .capture hp
  · exact .fault ..
  · cases unlessBusy_hold h

theorem execRx_result {b : Byte} {s t : State} (h : execRx b s = .next t) : ExecResult s (.rx b) t := by
  rcases commit_cases h with h | ⟨f, -, rfl⟩ | ⟨h, rfl⟩
  · split at h
    · cases h
    · rename_i hp
      injection h with h
      exact h ▸ .rx b hp
  · exact .fault ..
  · split at h
    · rename_i hp; exact .hold b hp
    · cases h

/-- Everything an operation can do. -/
theorem exec_result {i : Instr} {s t : State} (h : exec i s = .next t) : ExecResult s i t := by
  cases i with
  | rd off data => exact execRd_result h
  | wr off data => exact execWr_result h
  | clear =>
    injection h with h
    exact h ▸ .clear
  | gen len => exact execGen_result h
  | verify => exact execVerify_result h
  | align => exact execAlign_result h
  | capture => exact execCapture_result h
  | rx b => exact execRx_result h

/-- What a step that answers a next state did. -/
inductive StepResult (s t : State) : Prop where
  | ended (he : s.events = []) (hf : s.faults = []) (ht : t = s)
  | noOffer (es : List Event) (he : s.events = .rxOffer :: es) (hc : s.channel = [])
      (ht : t = { s with events := es })
  | rejected (w : BusWord) (es : List Event) (e : DecodeError) (he : s.events = .host w :: es)
      (hd : decode (.bus w) = .error e) (ht : t = recordFault (faultOfDecodeError e) { s with events := es })
  | host (w : BusWord) (es : List Event) (i : Instr) (he : s.events = .host w :: es)
      (hd : decode (.bus w) = .ok i) (hx : exec i { s with events := es } = .next t)
  | offer (b : Byte) (bs : List Byte) (es : List Event) (he : s.events = .rxOffer :: es)
      (hc : s.channel = b :: bs) (hx : exec (.rx b) { s with events := es } = .next t)

/-- Everything a step can do. -/
theorem step_result {s t : State} (h : step s = .next t) : StepResult s t := by
  unfold step at h
  cases he : s.events with
  | nil =>
    simp only [fetch_nil he, endOfRun] at h
    split at h
    · injection h with h
      exact .ended he ‹_› h.symm
    · contradiction
  | cons e es =>
    cases e with
    | host w =>
      simp only [fetch_host he, runWord] at h
      split at h
      · exact .host w es _ he ‹_› h
      · injection h with h
        exact .rejected w es _ he ‹_› h.symm
    | rxOffer =>
      cases hc : s.channel with
      | nil =>
        simp only [fetch_noOffer he hc] at h
        injection h with h
        exact .noOffer es he hc h.symm
      | cons b bs =>
        simp only [fetch_rxOffer he hc, runWord, decode] at h
        exact .offer b bs es he hc h

end Sys2Proof.Machine
end

