-- ==== Sys2Proof/Laws/Run.lean ====
section
/-! SUPPORT. Runs of several steps: one step unfolded, and runs joined. -/

namespace Sys2Proof.Machine

@[simp] theorem runFor_zero (s : State) : runFor 0 s = .next s := rfl

theorem runFor_eq_step (k : Nat) (s : State) :
    runFor (k + 1) s = (match step s with
      | .next t => runFor k t
      | .fault r => .fault r
      | .refused r => .refused r) := rfl

theorem runFor_succ {k : Nat} {s t : State} (h : step s = .next t) : runFor (k + 1) s = runFor k t := by
  rw [runFor_eq_step, h]

theorem runFor_add {a b : Nat} {s t : State} (h : runFor a s = .next t) : runFor (a + b) s = runFor b t := by
  induction a generalizing s with
  | zero =>
    injection h with h
    rw [Nat.zero_add, h]
  | succ a ih =>
    rw [Nat.add_right_comm, runFor_eq_step]
    rw [runFor_eq_step] at h
    cases hs : step s with
    | next u =>
      rw [hs] at h
      exact ih h
    | fault r =>
      rw [hs] at h
      contradiction
    | refused r =>
      rw [hs] at h
      contradiction

/-- A step takes its event off the list: the events left are the tail of the events there were. -/
theorem step_events {s t : State} (h : step s = .next t) : t.events = s.events.tail := by
  cases step_result h with
  | ended he _ ht => rw [ht, he]; rfl
  | noOffer es he _ ht => rw [ht, he]; rfl
  | rejected w es e he _ ht => rw [ht, he]; rfl
  | host w es i he _ hx =>
    rw [he, List.tail_cons]
    cases exec_result hx <;> rfl
  | offer b bs es he _ hx =>
    rw [he, List.tail_cons]
    cases exec_result hx <;> rfl

end Sys2Proof.Machine
end

