-- ==== Sys2Proof/Laws/HostRun.lean ====
section
/-! SUPPORT. Runs of the host's pseudo-operations: no operation looks at the events to come; once, everything a turn can
do; turns joined. -/

namespace Sys2Proof.Machine

/-! ### The moves -/

@[simp] theorem moveInstr_issue (i : Instr) : moveInstr (.issue i) = i := rfl

@[simp] theorem moveInstr_waitIdle : moveInstr .waitIdle = rdAt 0x1B := rfl

@[simp] theorem moveInstr_stopAtFramingFailure : moveInstr .stopAtFramingFailure = rdAt 0x1B := rfl

@[simp] theorem movesAfter_issue (i : Instr) (ms : List HostMove) (b : Option Byte) :
    movesAfter (.issue i) ms b = ms := rfl

@[simp] theorem moveStops_issue (i : Instr) (b : Option Byte) : moveStops (.issue i) b = false := rfl

@[simp] theorem moveStops_waitIdle (b : Option Byte) : moveStops .waitIdle b = false := rfl

@[simp] theorem pollIsIdle_statByte (r : Regs) : pollIsIdle (statByte r) = (r.phase == .idle) := by
  cases hp : r.phase <;> cases hf : r.ff <;> cases ho : r.ok <;> simp [pollIsIdle, statByte, busyBit, hp, hf, ho]

@[simp] theorem pollIsFramingFailure_statByte (r : Regs) : pollIsFramingFailure (statByte r) = r.ff := by
  cases hp : r.phase <;> cases hf : r.ff <;> cases ho : r.ok <;>
    simp [pollIsFramingFailure, statByte, busyBit, hp, hf, ho]

/-- The byte a RD returned is the one the host takes. -/
@[simp] theorem byteReturned_returnByte (b : Byte) (s : State) : byteReturned s (returnByte b s) = some b := by
  simp [byteReturned]

/-! ### No operation looks at the events to come -/

/-- The outcome with other events to come in its next state. -/
def outcomeWithEvents (es : List Event) :
    Host.Outcome State Fault Refusal → Host.Outcome State Fault Refusal
  | .next t => .next { t with events := es }
  | .fault f => .fault f
  | .refused f => .refused f

/-- The effect with other events to come in the state it leaves. -/
def effectWithEvents (es : List Event) : Effect → Effect
  | .done t => .done { t with events := es }
  | .modelFault f => .modelFault f
  | .hold => .hold

theorem commit_withEvents (es : List Event) (s : State) (e : Effect) :
    commit { s with events := es } (effectWithEvents es e) = outcomeWithEvents es (commit s e) := by
  cases e <;> rfl

theorem unlessBusy_withEvents (es : List Event) (s : State) (w : BusWord) (e : Effect) :
    unlessBusy { s with events := es } w (effectWithEvents es e) = effectWithEvents es (unlessBusy s w e) := by
  unfold unlessBusy
  cases s.regs.phase <;> rfl

theorem unlessUnwritten_withEvents (es : List Event) (s : State) (is : List (Fin Config.frameLen)) (e : Effect) :
    unlessUnwritten { s with events := es } is (effectWithEvents es e) =
      effectWithEvents es (unlessUnwritten s is e) := by
  cases hf : firstUnwritten s.regs.win is with
  | none => simp only [unlessUnwritten, hf]
  | some i =>
    simp only [unlessUnwritten, hf]
    rfl

/-- An operation does the same whatever events are to come, and keeps them (R9: an operation is one atomic step). -/
theorem exec_withEvents (es : List Event) (i : Instr) (s : State) :
    exec i { s with events := es } = outcomeWithEvents es (exec i s) := by
  cases i with
  | clear => rfl
  | verify =>
    show execVerify _ = outcomeWithEvents es (execVerify _)
    unfold execVerify
    rw [← commit_withEvents, ← unlessBusy_withEvents, ← unlessUnwritten_withEvents]; rfl
  | align =>
    show execAlign _ = outcomeWithEvents es (execAlign _)
    unfold execAlign
    rw [← commit_withEvents, ← unlessBusy_withEvents, ← unlessUnwritten_withEvents]; rfl
  | capture =>
    show execCapture _ = outcomeWithEvents es (execCapture _)
    unfold execCapture
    rw [← commit_withEvents, ← unlessBusy_withEvents]; rfl
  | gen len =>
    show execGen _ _ = outcomeWithEvents es (execGen _ _)
    unfold execGen
    rw [← commit_withEvents]; congr 1
    split
    · rfl
    · rw [← unlessBusy_withEvents, ← unlessUnwritten_withEvents]; rfl
  | rx b =>
    show execRx _ _ = outcomeWithEvents es (execRx _ _)
    unfold execRx
    rw [← commit_withEvents]; congr 1
    show (match s.regs.phase with | .idle => _ | .refill => _) = _
    cases s.regs.phase <;> rfl
  | wr off data =>
    show execWr _ _ _ = outcomeWithEvents es (execWr _ _ _)
    unfold execWr
    rw [← commit_withEvents]; congr 1
    split
    · rw [← unlessBusy_withEvents]; rfl
    · rfl
  | rd off data =>
    show execRd _ _ _ = outcomeWithEvents es (execRd _ _ _)
    unfold execRd
    rw [← commit_withEvents]; congr 1
    split
    · rename_i i _
      rw [← unlessBusy_withEvents]; congr 1
      show (match s.regs.win[i] with | some b => _ | none => _) = _
      cases s.regs.win[i] <;> rfl
    all_goals rfl

/-- One event alone, and the same event before others, do the same; the others are left. -/
theorem step_of_stepOn (es : List Event) {e : Event} {s t : State} (h : stepOn e s = .next t) :
    step { s with events := e :: es } = .next { t with events := es } ∧ t.events = s.events := by
  refine ⟨?_, ?_⟩
  · cases e with
    | host w =>
      unfold stepOn step at h
      rw [fetch_host rfl] at h
      unfold step
      rw [fetch_host rfl]
      simp only [runWord] at *
      split at h
      · rename_i i hi
        have h : exec i s = .next t := h
        exact (exec_withEvents es i s).trans (by rw [h]; rfl)
      · rename_i i hi
        injection h with h; subst h; rfl
    | rxOffer =>
      obtain ⟨regs, faults, ret, ch, evs⟩ := s
      cases ch with
      | nil => injection h with h; subst h; rfl
      | cons b bs =>
        have h : exec (.rx b) ⟨regs, faults, ret, b :: bs, evs⟩ = .next t := h
        exact (exec_withEvents es (.rx b) ⟨regs, faults, ret, b :: bs, evs⟩).trans (by rw [h]; rfl)
  · have := step_events h; exact this

/-! ### Turns -/

/-- What a turn that goes on did. -/
inductive TurnResult (r q : HostRun) : Turn → Prop where
  /-- The host has nothing left to do. -/
  | done (hm : r.moves = []) (hq : q = r) : TurnResult r q .host
  | move (m : HostMove) (ms : List HostMove) (t : State) (hm : r.moves = m :: ms)
      (ht : stepOn (eventOf (moveInstr m)) r.machine = .next t) (hq : q = afterMove m ms r t) : TurnResult r q .host
  | offer (t : State) (ht : stepOn .rxOffer r.machine = .next t) (hq : q = { r with machine := t }) :
      TurnResult r q .rx

/-- Everything a turn can do. -/
theorem takeTurn_result {a : Turn} {r q : HostRun} (h : takeTurn a r = .next q) : TurnResult r q a := by
  cases a with
  | rx =>
    simp only [takeTurn, turnEvent] at h
    split at h <;> cases h
    exact .offer _ ‹_› rfl
  | host =>
    cases hm : r.moves with
    | nil =>
      simp only [takeTurn, turnEvent, hm, List.head?_nil, Option.map_none] at h
      cases h
      exact .done hm rfl
    | cons m ms =>
      simp only [takeTurn, turnEvent, hm, List.head?_cons, Option.map_some] at h
      split at h <;> cases h
      exact .move m ms _ hm ‹_› (by simp only [afterTurn, hm])

theorem takeTurn_move {r : HostRun} {m : HostMove} {ms : List HostMove} {t : State} (hm : r.moves = m :: ms)
    (ht : stepOn (eventOf (moveInstr m)) r.machine = .next t) : takeTurn .host r = .next (afterMove m ms r t) := by
  simp only [takeTurn, turnEvent, hm, List.head?_cons, Option.map_some, ht, afterTurn]

theorem takeTurn_offer {r : HostRun} {t : State} (ht : stepOn .rxOffer r.machine = .next t) :
    takeTurn .rx r = .next { r with machine := t } := by
  simp only [takeTurn, turnEvent, ht, afterTurn]

@[simp] theorem takeTurns_nil (r : HostRun) : takeTurns [] r = .next r := rfl

theorem takeTurns_cons {a : Turn} {as : List Turn} {r q : HostRun} (h : takeTurn a r = .next q) :
    takeTurns (a :: as) r = takeTurns as q := by
  simp only [takeTurns, h]

theorem takeTurns_append {as bs : List Turn} {r q : HostRun} (h : takeTurns as r = .next q) :
    takeTurns (as ++ bs) r = takeTurns bs q := by
  induction as generalizing r with
  | nil =>
    cases h
    rfl
  | cons a as ih =>
    rw [List.cons_append]
    cases ht : takeTurn a r with
    | next p =>
      rw [takeTurns_cons ht] at h ⊢
      exact ih h
    | fault f =>
      simp only [takeTurns, ht] at h
      contradiction
    | refused f =>
      simp only [takeTurns, ht] at h
      contradiction

end Sys2Proof.Machine
end

