-- ==== Sys2Proof/Laws/PerInstr.lean ====
section
/-! SUPPORT. Per operation: its encoding lies in its row of the opcode table. -/

namespace Sys2Proof.Laws.MatchesRow

/-- The operation's bus word is in its row of spec/opcode_table.json; RX, whose row is an RX word's, has no bus word. -/
def Statement (i : Instr) : Prop :=
  match encode i, busRow i with
  | .bus w, some row => w &&& row.mask = row.value
  | .rx _, none => True
  | _, _ => False

theorem rd (off : Off) (data : Byte) : Statement (.rd off data) := by
  change busWord false off data &&& 0x2000 = 0x0000
  ext i hi
  interval_cases i <;> simp [busWord]

theorem wr (off : Fin 31) (data : Byte) : Statement (.wr off data) := by
  change busWord true (BitVec.ofNat 5 off.val) data &&& 0x2000 = 0x2000
  ext i hi
  interval_cases i <;> simp [busWord]

theorem clear : Statement .clear := by
  change cmdWord 0 Config.opClear &&& 0x3FFF = 0x3F00
  decide

theorem gen (len : BitVec 5) : Statement (.gen len) := by
  change cmdWord len Config.opGen &&& 0x3F07 = 0x3F01
  revert len
  decide

theorem verify : Statement .verify := by
  change cmdWord 0 Config.opVerify &&& 0x3FFF = 0x3F02
  decide

theorem align : Statement .align := by
  change cmdWord 0 Config.opAlign &&& 0x3FFF = 0x3F03
  decide

theorem capture : Statement .capture := by
  change cmdWord 0 Config.opCapture &&& 0x3FFF = 0x3F04
  decide

theorem rx (b : Byte) : Statement (.rx b) := trivial

end Sys2Proof.Laws.MatchesRow
end

