-- ==== Sys2Proof/Tests/Slice0.lean ====
section
/-! SUPPORT. Tests: decodings written out from the spec's encodings, vectors of spec/95_test_vectors.md one step at a
time, and for every statement with hypotheses a state and operands that meet them. -/

namespace Sys2Proof.Tests

open Sys2Proof.Machine

/-! ### Helpers -/

/-- The next state, where there is one. -/
def after (o : Host.Outcome State Fault Refusal) : Option State :=
  match o with
  | .next s => some s
  | _ => none

/-- The registers after an operation. -/
def regsAfter (i : Instr) (s : State) : Option Regs := (after (exec i s)).map State.regs

/-- The faults recorded after an operation. -/
def faultsAfter (i : Instr) (s : State) : Option (List ModelFault) := (after (exec i s)).map State.faults

/-- The bytes returned after an operation. -/
def returnedAfter (i : Instr) (s : State) : Option (List Byte) := (after (exec i s)).map State.returned

/-- The bytes `bs`, then `fill`, as 26 cells. -/
def cells (bs : List Byte) (fill : Option Byte) : Window :=
  Vector.ofFn fun i => if h : i.val < bs.length then some bs[i.val] else fill

/-- Reset registers with another window. -/
def withWin (w : Window) : State := { State.reset with regs := { Regs.reset with win := w } }

/-- A refill with `n` bytes pending over the window `w`, and bytes in the channel. -/
def refilling (n : BitVec 5) (w : Window) (channel : List Byte) : State :=
  { State.reset with regs := { Regs.reset with win := w, pend := n, phase := .refill }, channel := channel }

/-- Frame F1 of spec/95_test_vectors.md. -/
def frameF1 : Frame :=
  Vector.ofFn fun i => if i.val = 25 then 0x36 else ([0xAA, 0x01, 0x22, 0x39, 0x30] : List Byte).getD i.val 0

/-- F1's window. -/
def winF1 : Window := Vector.ofFn fun i => some frameF1[i]

/-- F1 verified: STAT.OK = 1, CSUM = 0x36 (V1). -/
def verifiedF1 : State :=
  { State.reset with regs := { Regs.reset with win := winF1, csum := 0x36, ok := true } }

/-! ### Well-formedness -/

theorem test_wellFormed_refuses_gen_21 : (Instr.gen 21).wellFormed = false := by decide

theorem test_wellFormed_accepts_gen_20 : (Instr.gen 20).wellFormed = true := by decide

/-! ### Decoding: words written out from R45, R47, R51, R53 -/

/-- `0 11001 00000000`. -/
theorem test_decode_rd : decode (.bus 0b01100100000000) = .ok (.rd 0x19 0x00) := by decide

/-- `0 11111 10100101`: a read of 0x1F is RD whatever DATA holds (R46). -/
theorem test_decode_rd_cmd : decode (.bus 0b01111110100101) = .ok (.rd 0x1F 0xA5) := by decide

/-- `1 00011 00111001`. -/
theorem test_decode_wr : decode (.bus 0b10001100111001) = .ok (.wr 3 0x39) := by decide

/-- `1 11110 00000001`. -/
theorem test_decode_wr_1E : decode (.bus 0b11111000000001) = .ok (.wr 30 0x01) := by decide

/-- `1 11111 00000 000`. -/
theorem test_decode_clear : decode (.bus 0b11111100000000) = .ok .clear := by decide

/-- `1 11111 00100 001`. -/
theorem test_decode_gen_4 : decode (.bus 0b11111100100001) = .ok (.gen 4) := by decide

/-- `1 11111 10100 001` = 0x3FA1 (G3). -/
theorem test_decode_gen_20 : decode (.bus 0x3FA1) = .ok (.gen 20) := by decide

/-- `1 11111 00000 010`. -/
theorem test_decode_verify : decode (.bus 0b11111100000010) = .ok .verify := by decide

/-- `1 11111 00000 011`. -/
theorem test_decode_align : decode (.bus 0b11111100000011) = .ok .align := by decide

/-- `1 11111 00000 100`. -/
theorem test_decode_capture : decode (.bus 0b11111100000100) = .ok .capture := by decide

theorem test_decode_rx : decode (.rx 0b10101010) = .ok (.rx 0xAA) := by decide

/-- B10, B11: OP 0b101 and 0b111. -/
theorem test_decode_reserved_op :
    decode (.bus 0x3F05) = .error (.reservedOp 0x05) ∧ decode (.bus 0x3FFF) = .error (.reservedOp 0xFF) := by decide

/-- V10, C-arg: VERIFY and CLEAR with ARG = 1. -/
theorem test_decode_reserved_field :
    decode (.bus 0x3F0A) = .error (.reservedField 0x0A) ∧ decode (.bus 0x3F08) = .error (.reservedField 0x08) := by
  decide

theorem test_encode_gen_4 : encode (.gen 4) = .bus 0x3F21 := by decide

theorem test_encode_wr : encode (.wr 1 0x05) = .bus 0x2105 := by decide

theorem test_table_words :
    decodeTableWord 16 0x3F21 = some (.gen 4) ∧ decodeTableWord 8 0xF3 = some (.rx 0xF3) ∧
    decodeTableWord 16 0x7F21 = none ∧ decodeTableWord 16 0x3F05 = none ∧ decodeTableWord 32 0 = none := by decide

/-! ### The checksum: S3, S4, S5 -/

theorem test_sum8_S3 : sum8 (List.replicate 25 0xFF) = 0xE7 := by decide

theorem test_sum8_S4 : sum8 (0xAA :: List.replicate 24 0xFF) = 0x92 := by decide

theorem test_frameSum_F1 : frameSum frameF1 = 0x36 := by decide

/-! ### RD and WR -/

/-- X-stat: after `CAPTURE`, `RX 07`: STAT reads 0x04, PEND 25. -/
theorem test_rd_stat_pend :
    returnedAfter (.rd 0x1B 0) (refilling 25 (cells [0x07] none) []) = some [0x04] ∧
    returnedAfter (.rd 0x1D 0) (refilling 25 (cells [0x07] none) []) = some [25] := by decide

/-- B1, B2, B7. -/
theorem test_rd_faults :
    faultsAfter (.rd 0x05 0) State.reset = some [.unwrittenByte 5] ∧
    faultsAfter (.rd 0x00 0) (refilling 26 (cells [] none) []) = some [.busy 0x0000] ∧
    faultsAfter (.rd 0x1E 0) (refilling 26 (cells [] none) []) = some [.busError 0x1E] := by decide

/-- B14: OK is cleared although the value is unchanged. -/
theorem test_wr_clears_ok :
    (regsAfter (.wr 7 0x00) verifiedF1).map (fun r => (r.ok, r.win[7], r.csum)) = some (false, some 0x00, 0x36) := by
  decide

/-- B3, B4. -/
theorem test_wr_faults :
    faultsAfter (.wr 3 0x01) (refilling 26 (cells [] none) []) = some [.busy 0x2301] ∧
    faultsAfter (.wr 26 0x01) State.reset = some [.busError 0x1A] := by decide

/-! ### CLEAR, GEN, VERIFY -/

/-- C-cap: `CAPTURE`, `RX AA` three times, `CLEAR`. -/
theorem test_clear :
    (regsAfter .clear (refilling 23 (cells [0xAA, 0xAA, 0xAA] none) [])).map
      (fun r => (r.win[2], r.win[3], r.pend, r.phase)) = some (some 0xAA, none, 0, .idle) := by decide

/-- G5: payload bytes 0xAA kept, the rest zeroed. -/
theorem test_gen_G5 :
    (regsAfter (.gen 2) (withWin (cells [0x77, 0x05, 0xAA, 0xAA, 0xAA] (some 0x55)))).map
      (fun r => (r.win[0], r.win[4], r.win[5], r.win[24], r.win[25], r.csum)) =
      some (some 0xAA, some 0xAA, some 0, some 0, some 0xAD, 0xAD) := by decide

/-- G6, G8. -/
theorem test_gen_faults :
    faultsAfter (.gen 21) State.reset = some [.lenRange 21] ∧
    faultsAfter (.gen 3) (withWin ((cells [0x00, 0x01, 0x02, 0x03, 0x04] none))) = some [.unwrittenByte 5] := by decide

/-- V1, V2. -/
theorem test_verify_V1_V2 :
    (regsAfter .verify (withWin winF1)).map (fun r => (r.csum, r.ok)) = some (0x36, true) ∧
    (regsAfter .verify (withWin (winF1.set 3 (some 0x38)))).map (fun r => (r.csum, r.ok)) = some (0x35, false) := by
  decide

/-- V5, V9: no marker check, and the lowest unwritten cell. -/
theorem test_verify_V5_V9 :
    (regsAfter .verify (withWin ((winF1.set 0 (some 0x00)).set 25 (some 0x8C)))).map (fun r => (r.csum, r.ok)) =
      some (0x8C, true) ∧
    faultsAfter .verify (withWin (winF1.set 25 none)) = some [.unwrittenByte 25] := by decide

/-! ### CAPTURE, ALIGN, RX -/

theorem test_capture :
    (regsAfter .capture verifiedF1).map (fun r => (r.win[0], r.win[25], r.pend, r.phase, r.ok, r.csum)) =
      some (none, none, 26, .refill, false, 0x36) := by decide

/-- A25: the marker at offset 25. -/
theorem test_align_A25 :
    (regsAfter .align (withWin ((cells [] (some 0x01)).set 25 (some 0xAA)))).map
      (fun r => (r.win[0], r.win[1], r.koff, r.pend, r.phase)) = some (some 0xAA, none, 25, 25, .refill) := by decide

/-- AN, A-unw. -/
theorem test_align_AN :
    (regsAfter .align (withWin (cells [] (some 0x55)))).map (fun r => (r.win[0], r.ff, r.koff, r.phase)) =
      some (some 0x55, true, 0, .idle) ∧
    faultsAfter .align (withWin (cells (List.replicate 10 0xAA) none)) = some [.unwrittenByte 10] := by decide

/-- The last refill byte of A1 ends the refill and leaves the channel. -/
theorem test_rx_last :
    (after (exec (.rx 0xF3) (refilling 1 (cells (List.replicate 25 0xAA) none) [0xF3, 0x11]))).map
      (fun t => (t.regs.win[25], t.regs.pend, t.regs.phase, t.channel)) = some (some 0xF3, 0, .idle, [0x11]) := by decide

/-- X-idle. -/
theorem test_rx_holds :
    after (exec (.rx 0x42) { State.reset with channel := [0x42] }) = some { State.reset with channel := [0x42] } := by
  decide

/-! ### Steps -/

/-- G10: the encoding check comes before Busy. -/
theorem test_step_lenRange_before_busy :
    (after (step { refilling 26 (cells [] none) [] with events := [.host 0x3FA9] })).map State.faults =
      some [.lenRange 21] := by decide

/-- C-busy after `CAPTURE`, `RX 01`: CLEAR is accepted in REFILL. -/
theorem test_step_clear_in_refill :
    (after (step { refilling 25 (cells [0x01] none) [] with events := [.host 0x3F00] })).map
      (fun t => (t.faults, t.regs.phase, t.regs.win[0])) = some ([], .idle, some 0x01) := by decide

theorem test_withFetchWord :
    (after (step (State.reset.withFetchWord 16 0x3F04))).map (fun t => (t.regs.pend, t.events)) = some (26, []) := by
  decide

/-! ### The hypotheses of the statements are met

Each theorem names its statement and shows a state and operands, at the ends of the ranges, that meet them. -/

theorem meets_EncodeOfDecodeIsTheWord : ∃ i, decode (.bus 0x3FF9) = .ok i := ⟨.gen 31, by decide⟩

theorem meets_BusWordIsReadWriteOrCommand :
    busWe 0x1FFF = false ∧ (busWe 0x3EFF = true ∧ busOff 0x3EFF ≠ 0x1F) ∧ (busWe 0x2000 = true ∧ busOff 0x2000 ≠ 0x1F) ∧
    (busWe 0x3F00 = true ∧ busOff 0x3F00 = 0x1F) := by decide

theorem meets_StepRunsTheDecodedInstruction :
    (∃ s : State, s.events = [.host 0x3F04] ∧ decode (.bus 0x3F04) = .ok .capture) ∧
    (∃ s : State, s.events = [.rxOffer] ∧ s.channel = [0x42]) :=
  ⟨⟨{ State.reset with events := [.host 0x3F04] }, rfl, by decide⟩,
    ⟨{ State.reset with events := [.rxOffer], channel := [0x42] }, rfl, rfl⟩⟩

theorem meets_PlacedWordRunsNext : decode (.bus 0x3F02) = .ok .verify := by decide

/-- A word for each branch (CmdWriteIsCheckedInOrder), ARG and LEN at their ends: all are CMD writes, and the
branches exclude each other by their order. -/
theorem meets_CmdWriteIsCheckedInOrder :
    ([0x3F05, 0x3FFF, 0x3F08, 0x3FFC, 0x3FA9, 0x3FF9, 0x3FA1, 0x3F00, 0x3F01, 0x3F02, 0x3F03, 0x3F04] : List BusWord).all
      (fun w => busWe w && busOff w == 0x1F) = true := by decide

/-- The Busy branch and the branches after it, in the two phases. -/
theorem meets_CmdWriteIsCheckedInOrder_phases :
    (refilling 1 winF1 []).regs.phase = .refill ∧ State.reset.regs.phase = .idle := by decide

theorem meets_RunEndsFailedIffAFaultIsRecorded :
    (State.reset.events = [] ∧ State.reset.faults = []) ∧
    isFailed { State.reset with faults := [.busError 0x1E] } := by
  refine ⟨⟨rfl, rfl⟩, ?_⟩
  simp [isFailed]

theorem meets_FaultsArePreciseAndNeverCleared :
    (after (step { State.reset with events := [.host 0x1E00] })).map State.faults = some [.busError 0x1E] ∧
    (after (step { State.reset with events := [.host 0x3F05] })).map State.faults = some [.reservedOp 0x05] := by decide

/-- The invariant holds of a verified window (OK = 1), from which a step goes on. -/
theorem meets_EveryStepKeepsTheInvariant :
    RegsInv verifiedF1.regs ∧
    (after (step { verifiedF1 with events := [.host 0x3F03] })).map (fun t => t.regs.ok) = some false := by
  refine ⟨⟨by decide, by decide, by decide, by decide, by decide, by decide, by decide, by decide⟩, by decide⟩

/-- The invariant holds during a refill, at both ends of PEND. -/
theorem meets_EveryStepKeepsTheInvariant_refill :
    RegsInv (refilling 26 (cells [] none) []).regs ∧ RegsInv (refilling 1 (cells (List.replicate 25 0xAA) none) []).regs := by
  refine ⟨⟨by decide, by decide, by decide, by decide, by decide, by decide, by decide, by decide⟩,
    ⟨by decide, by decide, by decide, by decide, by decide, by decide, by decide, by decide⟩⟩

theorem meets_ReachableStatesSatisfyTheInvariant : Reachable State.reset := .start [] []

theorem meets_ReadReturnsTheRegister :
    verifiedF1.regs.phase = .idle ∧ verifiedF1.regs.win[(0 : Fin Config.frameLen)] = some 0xAA ∧
    verifiedF1.regs.win[(25 : Fin Config.frameLen)] = some 0x36 ∧ returnedAfter (.rd 0x19 0) verifiedF1 = some [0x36] ∧
    returnedAfter (.rd 0x1A 0) verifiedF1 = some [0x36] ∧ returnedAfter (.rd 0x1B 0) verifiedF1 = some [0x01] ∧
    returnedAfter (.rd 0x1C 0) verifiedF1 = some [0x00] ∧ returnedAfter (.rd 0x1D 0) verifiedF1 = some [0x00] := by decide

theorem meets_ReadFaultsByOffsetThenPhaseThenCell :
    (refilling 26 (cells [] none) []).regs.phase = .refill ∧ (0x19 : Off).toNat = (25 : Fin Config.frameLen).val ∧
    State.reset.regs.phase = .idle ∧ State.reset.regs.win[(25 : Fin Config.frameLen)] = none ∧
    State.reset.regs.win[(0 : Fin Config.frameLen)] = none := by decide

theorem meets_ReadIgnoresItsDataBits :
    (after (exec (.rd 0x00 0x00) verifiedF1)).isSome ∧ (after (exec (.rd 0x00 0xFF) verifiedF1)).isSome := by decide

theorem meets_WriteStoresTheByteAndClearsOk :
    State.reset.regs.phase = .idle ∧ (0 : Fin 31).val = (0 : Fin Config.frameLen).val ∧
    (25 : Fin 31).val = (25 : Fin Config.frameLen).val := by decide

theorem meets_WriteFaultsByOffsetThenPhase :
    26 ≤ (26 : Fin 31).val ∧ 26 ≤ (30 : Fin 31).val ∧ (25 : Fin 31).val < 26 ∧
    (refilling 1 winF1 []).regs.phase = .refill := by decide

theorem meets_ReadsAndRepeatedWritesHaveNoFurtherEffect :
    (after (exec (.rd 0x19 0) verifiedF1)).isSome ∧ faultsAfter (.wr 25 0x36) verifiedF1 = some verifiedF1.faults := by
  decide

theorem meets_ChecksumIsAnEightBitSumInAnyOrder : (List.replicate 25 (0xFF : Byte)).length = 25 := by decide

theorem meets_OneByteCorruptionIsDetected :
    frameValid frameF1 = true ∧ (frameF1.set 3 0x38)[(3 : Fin Config.frameLen)] ≠ frameF1[(3 : Fin Config.frameLen)] ∧
    (∀ i : Fin Config.frameLen, i ≠ 3 → (frameF1.set 3 0x38)[i] = frameF1[i]) ∧
    (frameF1.set 25 0x37)[(25 : Fin Config.frameLen)] ≠ frameF1[(25 : Fin Config.frameLen)] := by decide

/-- V6 (offsets 3 and 4 swapped) and V7 (+1 at offset 3, -1 at offset 4). -/
theorem meets_OneByteCorruptionIsDetected_undetected :
    (((frameF1.set 3 0x30).set 4 0x39).toList.take 25).Perm (frameF1.toList.take 25) ∧
    ((frameF1.set 3 0x3A).set 4 0x2F)[(3 : Fin Config.frameLen)] = frameF1[(3 : Fin Config.frameLen)] + 1 ∧
    ((frameF1.set 3 0x3A).set 4 0x2F)[(4 : Fin Config.frameLen)] = frameF1[(4 : Fin Config.frameLen)] - 1 ∧
    (∀ m : Fin Config.frameLen, m ≠ 3 → m ≠ 4 → ((frameF1.set 3 0x3A).set 4 0x2F)[m] = frameF1[m]) := by decide

/-- LEN 0 and LEN 20 with just their operand cells written. -/
theorem meets_GenBuildsTheFrame :
    (withWin (cells [0x00, 0x01, 0x22] none)).regs.phase = .idle ∧
    (∀ i : Fin Config.frameLen, 1 ≤ i.val → i.val < 3 + (0 : BitVec 5).toNat →
      (withWin (cells [0x00, 0x01, 0x22] none)).regs.win[i] ≠ none) ∧
    (∀ i : Fin Config.frameLen, 1 ≤ i.val → i.val < 3 + (20 : BitVec 5).toNat →
      (withWin (cells (List.replicate 23 0xFF) none)).regs.win[i] ≠ none) := by decide

theorem meets_GenFaultsByLengthThenPhaseThenCell :
    20 < (21 : BitVec 5).toNat ∧ (20 : BitVec 5).toNat ≤ 20 ∧ (refilling 1 winF1 []).regs.phase = .refill ∧
    State.reset.regs.win[(1 : Fin Config.frameLen)] = none ∧
    (withWin (winF1.set 22 none)).regs.win[(22 : Fin Config.frameLen)] = none ∧
    (∀ j : Fin Config.frameLen, 1 ≤ j.val → j.val < 22 → (withWin (winF1.set 22 none)).regs.win[j] ≠ none) := by decide

theorem meets_GenThenVerifySucceeds :
    faultsAfter (.gen 0) (withWin (cells [0x00, 0x01, 0x22] none)) = some [] ∧
    faultsAfter (.gen 20) (withWin winF1) = some [] := by decide

theorem meets_VerifyComparesTheSumWithByte25 :
    (withWin winF1).regs.phase = .idle ∧
    (∀ i : Fin Config.frameLen, (withWin winF1).regs.win[i] = some frameF1[i]) := by decide

theorem meets_VerifyAndAlignFaultOnTheLowestUnwrittenCell :
    State.reset.regs.win[(0 : Fin Config.frameLen)] = none ∧
    (withWin (winF1.set 25 none)).regs.win[(25 : Fin Config.frameLen)] = none ∧
    (∀ j : Fin Config.frameLen, j < 25 → (withWin (winF1.set 25 none)).regs.win[j] ≠ none) := by decide

theorem meets_CaptureEmptiesTheWindowAndStartsARefill : verifiedF1.regs.phase = .idle := by decide

/-- The first marker at offset 0 (F1) and at offset 25. -/
theorem meets_AlignShiftsToTheFirstMarker :
    frameF1[(0 : Fin Config.frameLen)] = 0xAA ∧
    (∀ j : Fin Config.frameLen, j < 25 → (Vector.replicate 26 (0x01 : Byte) |>.set 25 0xAA)[j] ≠ 0xAA) ∧
    (Vector.replicate 26 (0x01 : Byte) |>.set 25 0xAA)[(25 : Fin Config.frameLen)] = 0xAA := by decide

theorem meets_AlignWithoutMarkerIsAFramingFailure :
    (∀ i : Fin Config.frameLen, (withWin (cells [] (some 0x55))).regs.win[i] = some ((Vector.replicate 26 (0x55 : Byte))[i])) ∧
    (∀ i : Fin Config.frameLen, (Vector.replicate 26 (0x55 : Byte))[i] ≠ 0xAA) ∧
    (withWin (cells [] (some 0x55))).regs.ff = false ∧
    (regsAfter .align (withWin (cells [] (some 0x55)))).map Regs.ff = some true := by decide

theorem meets_RxFillsTheNextCell :
    (refilling 26 (cells [] none) [0xAA]).regs.pend.toNat = 26 - (0 : Fin Config.frameLen).val ∧
    (refilling 1 (cells (List.replicate 25 0xAA) none) [0xF3]).regs.pend.toNat = 26 - (25 : Fin Config.frameLen).val ∧
    (refilling 1 (cells (List.replicate 25 0xAA) none) [0xF3]).regs.phase = .refill := by decide

theorem meets_RxHoldsWhileIdleAndRefillWaits :
    State.reset.regs.phase = .idle ∧
    ({ refilling 26 (cells [] none) [] with events := [.rxOffer] } : State).channel = [] := by decide

theorem meets_RxRaisesNoFault :
    (after (step { refilling 1 (cells (List.replicate 25 0xAA) none) [0xF3] with events := [.rxOffer] })).isSome := by
  decide

/-- A refill of 1 byte and one of 26. -/
theorem meets_RefillTakesThePendingBytesInOrder :
    (refilling 1 (cells (List.replicate 25 0xAA) none) [0xF3]).regs.pend.toNat = [(0xF3 : Byte)].length ∧
    (refilling 26 (cells [] none) (List.replicate 26 0xAA)).regs.pend.toNat = (List.replicate 26 (0xAA : Byte)).length ∧
    (refilling 26 (cells [] none) (List.replicate 26 0xAA)).regs.phase = .refill := by decide

theorem meets_ChannelBytesAreTakenInOrderOnlyInRefill :
    (after (step { refilling 2 (cells [] none) [0x01, 0x02] with events := [.rxOffer] })).map State.channel =
      some [0x02] := by decide

theorem meets_RefillWindowIsClosedToTheHost :
    (refilling 26 (cells [] none) []).regs.phase = .refill ∧
    needsIdle (.rd 0x19 0) = true ∧ encode (.rd 0x19 0) = .bus 0x1900 ∧ needsIdle (.wr 25 0) = true ∧
    encode (.wr 25 0) = .bus 0x3900 ∧ needsIdle (.gen 20) = true ∧ encode (.gen 20) = .bus 0x3FA1 ∧
    needsIdle .verify = true ∧ needsIdle .align = true ∧ needsIdle .capture = true := by decide

theorem meets_OnlyClearAndRxActDuringARefill :
    (regsAfter .clear (refilling 26 (cells [] none) [])).map Regs.phase = some .idle ∧
    (regsAfter (.rx 0x01) (refilling 26 (cells [] none) [0x01])).map Regs.pend = some 25 := by decide

/-- Each register is changed by some operation: CSUM and OK, FF, K and PEND and PHASE and WIN, the returned bytes. -/
theorem meets_OnlyTheNamedOperationsWriteEachRegister :
    (regsAfter .verify (withWin winF1)).map (fun r => (r.csum, r.ok)) = some (0x36, true) ∧
    (regsAfter .align (withWin (cells [] (some 0x55)))).map Regs.ff = some true ∧
    (regsAfter .align (withWin (cells [0x01] (some 0xAA)))).map
      (fun r => (r.koff, r.pend, r.phase, r.win[25])) = some (1, 1, .refill, none) ∧
    returnedAfter (.rd 0x1A 0) State.reset = some [0x00] := by decide

theorem meets_ChangedWindowHasOkClear :
    (after (step { verifiedF1 with events := [.host 0x2338] })).map (fun t => t.regs.win[3]) = some (some 0x38) := by
  decide

theorem meets_ClearAndRxInEitherOrder :
    (refilling 1 (cells (List.replicate 25 0xAA) none) [0xF3]).regs.phase = .refill ∧
    (refilling 1 (cells (List.replicate 25 0xAA) none) [0xF3]).regs.pend.toNat = 26 - (25 : Fin Config.frameLen).val ∧
    (refilling 26 (cells [] none) [0xF3]).regs.pend.toNat = 26 - (0 : Fin Config.frameLen).val := by decide

/-- ENCODE with the longest payload and with none. -/
theorem meets_DecodeReturnsWhatEncodeWasGiven :
    State.reset.regs.phase = .idle ∧ (List.replicate 20 (0xFF : Byte)).length ≤ 20 ∧
    ({ State.reset with events := (encodeSeq 0x01 0x22 [] ++ decodeSeq).map eventOf } : State).events =
      (encodeSeq 0x01 0x22 [] ++ decodeSeq).map eventOf ++ [] := by decide

/-- F1 behind 25 garbage bytes and behind none. -/
theorem meets_FrameBehindGarbageIsRecovered :
    frameValid frameF1 = true ∧ frameF1[0] = 0xAA ∧ (List.replicate 25 (0x01 : Byte)).length ≤ 25 ∧
    (0xAA : Byte) ∉ List.replicate 25 (0x01 : Byte) ∧ ([] : List Byte).length ≤ 25 ∧
    ({ State.reset with channel := List.replicate 25 0x01 ++ frameF1.toList } : State).channel =
      List.replicate 25 0x01 ++ frameF1.toList ++ [] := by decide

/-! ### The host's pseudo-operations (R54) -/

/-- RECEIVE at its read of STAT, on the reset machine with other flags. -/
def atStatRead (ff : Bool) : HostRun :=
  startHostRun (receiveMoves.drop 3) { State.reset with regs := { Regs.reset with ff := ff } }

/-- WAITIDLE with a VERIFY after it. -/
def atWaitIdle (s : State) : HostRun := startHostRun [.waitIdle, .issue .verify] s

/-- The moves after some turns. -/
def movesAfterTurns (as : List Turn) (r : HostRun) : Option (List HostMove) :=
  match takeTurns as r with
  | .next q => some q.moves
  | _ => none

/-- R54: a poll during a refill does not end WAITIDLE, also with an RX offer after it; the poll after the last byte does. -/
theorem test_waitIdle_polls_until_idle :
    movesAfterTurns [.host, .rx, .host] (atWaitIdle (refilling 2 (cells [] none) [0x01, 0x02])) =
      some [.waitIdle, .issue .verify] ∧
    movesAfterTurns [.host, .rx, .rx, .host] (atWaitIdle (refilling 2 (cells [] none) [0x01, 0x02])) =
      some [.issue .verify] := by decide

/-- R54: an RX offer between ALIGN and the read of STAT is taken; the host then still reads STAT. -/
theorem test_receive_offer_between_align_and_stat :
    movesAfterTurns [.host, .rx] (startHostRun (receiveMoves.drop 2)
      { withWin (cells [0x01] (some 0xAA)) with channel := [0xF3] }) = some (receiveMoves.drop 3) := by decide

theorem meets_LoadWinThenReadFrameReturnsTheFrame :
    State.reset.regs.phase = .idle ∧
    ({ State.reset with events := (loadWinSeq frameF1 ++ readFrameSeq).map eventOf } : State).events =
      (loadWinSeq frameF1 ++ readFrameSeq).map eventOf ++ [] := by decide

/-- A host with a poll to make, and one with nothing left to do. -/
theorem meets_TurnsAreARunOfTheMachine :
    (movesAfterTurns [.rx, .host] (atWaitIdle State.reset)).isSome ∧
    (movesAfterTurns [.host] (startHostRun [] State.reset)).isSome := by decide

theorem meets_WaitIdlePollsUntilBusyIsZero :
    (atWaitIdle State.reset).moves = .waitIdle :: [.issue .verify] ∧
    (statByte State.reset.regs).getLsbD 2 = false ∧
    (statByte (refilling 2 (cells [] none) []).regs).getLsbD 2 = true ∧
    (movesAfterTurns [.rx] (atWaitIdle State.reset)).isSome := by decide

theorem meets_ReceiveStopsIffFramingFailure :
    (atStatRead true).moves = .stopAtFramingFailure :: receiveMoves.drop 4 ∧
    (statByte (atStatRead true).machine.regs).getLsbD 1 = true ∧
    (atStatRead false).moves = .stopAtFramingFailure :: receiveMoves.drop 4 ∧
    (statByte (atStatRead false).machine.regs).getLsbD 1 = false := by decide

/-- F1 behind 25 garbage bytes and behind none. -/
theorem meets_ReceiveReturnsTheFrameInEveryOrderOfTurns :
    frameValid frameF1 = true ∧ frameF1[0] = 0xAA ∧ (List.replicate 25 (0x01 : Byte)).length ≤ 25 ∧
    (0xAA : Byte) ∉ List.replicate 25 (0x01 : Byte) ∧ ([] : List Byte).length ≤ 25 ∧
    ({ State.reset with channel := List.replicate 25 0x01 ++ frameF1.toList } : State).channel =
      List.replicate 25 0x01 ++ frameF1.toList ++ [] ∧
    ({ State.reset with channel := frameF1.toList } : State).channel = [] ++ frameF1.toList ++ [] := by decide

end Sys2Proof.Tests
end

/-! The state: what reset leaves (R25), and the invariants of R22 in every reachable state. A step keeps them because
every operation that writes registers does; each writes a state of one of three kinds, idle with OK clear, refilling, or
just verified. -/

namespace Sys2Proof.Machine

/-! ### A window that holds a frame -/

theorem bytesAt_frame {w : Window} {f : Frame} (h : ∀ i : Fin Config.frameLen, w[i] = some f[i])
    (is : List (Fin Config.frameLen)) : bytesAt w is = is.map fun i => f[i] := by
  simp only [bytesAt, h, List.filterMap_eq_map']

/-- The bytes of a frame at the offsets of CK_SPAN are its first 25 (R4, R42). -/
theorem map_spanOffsets_frame (f : Frame) : (spanOffsets.map fun i => f[i]) = f.toList.take 25 := by
  have hspan : spanOffsets = (List.finRange Config.frameLen).take 25 := by decide
  have hlist : f.toList = (List.finRange Config.frameLen).map fun i => f[i] :=
    List.ext_getElem (by simp) (by simp)
  rw [hspan, hlist, List.map_take]

/-- The sum VERIFY takes over a window that holds a frame is the frame's sum (R55). -/
theorem windowSum_frame {w : Window} {f : Frame} (h : ∀ i : Fin Config.frameLen, w[i] = some f[i]) :
    windowSum w = frameSum f := by
  rw [windowSum, bytesAt_frame h, map_spanOffsets_frame, frameSum]

/-- A window with no unwritten cell holds a frame (R12, R42). -/
theorem exists_frame_of_written {w : Window} (h : ∀ i : Fin Config.frameLen, w[i] ≠ none) :
    ∃ f : Frame, ∀ i : Fin Config.frameLen, w[i] = some f[i] := by
  choose byte hbyte using fun i => Option.ne_none_iff_exists'.1 (h i)
  exact ⟨Vector.ofFn byte, fun i => by simpa using hbyte i⟩

/-! ### The invariants of R22, by kind of state -/

theorem RegsInv.pend_eq_zero {r : Regs} (h : RegsInv r) (hp : r.phase = .idle) : r.pend = 0 := by
  have hpend : ¬ 0 < r.pend.toNat := fun hpos => by simp [h.refill_iff_pending.2 hpos] at hp
  exact BitVec.eq_of_toNat_eq (by simpa using hpend)

/-- In IDLE with OK clear, only the clauses on PEND, K and FF are left of R22. -/
theorem regsInv_of_idle {r : Regs} (hp : r.phase = .idle) (hn : r.pend = 0) (hok : r.ok = false)
    (hk : r.koff.toNat ≤ 25) (hff : r.ff = true → r.koff = 0) : RegsInv r where
  refill_iff_pending := by simp [hp, hn]
  pend_le := by simp [hn]
  koff_le := hk
  ff_koff := hff
  refill_cells := by simp [hp]
  ok_written := by simp [hok]
  ok_checksum := by simp [hok]
  ok_csum := by simp [hok]

/-- In REFILL OK is clear, and the clauses on the pending cells are left of R22. -/
theorem regsInv_of_refill {r : Regs} (hp : r.phase = .refill) (hpos : 0 < r.pend.toNat) (hle : r.pend.toNat ≤ 26)
    (hok : r.ok = false) (hk : r.koff.toNat ≤ 25) (hff : r.ff = true → r.koff = 0)
    (hcells : ∀ i : Fin Config.frameLen, 26 - r.pend.toNat ≤ i.val → r.win[i] = none) : RegsInv r where
  refill_iff_pending := by simp [hp, hpos]
  pend_le := hle
  koff_le := hk
  ff_koff := hff
  refill_cells := fun _ => hcells
  ok_written := by simp [hok]
  ok_checksum := by simp [hok]
  ok_csum := by simp [hok]

theorem regsInv_reset : RegsInv Regs.reset := regsInv_of_idle rfl rfl rfl (by simp) (by simp)

/-! ### Every operation keeps the invariants -/

theorem writeCell_keeps_inv {r : Regs} (h : RegsInv r) (hp : r.phase = .idle) (i : Nat) (b : Byte) :
    RegsInv (writeCell i b r) :=
  regsInv_of_idle hp (h.pend_eq_zero hp) (writeCell_ok i b r) h.koff_le h.ff_koff

theorem clear_keeps_inv (r : Regs) : RegsInv (setAlignResult false 0 { endRefill r with ok := false }) :=
  regsInv_of_idle rfl rfl rfl (by simp) (by simp)

theorem genRegs_keeps_inv {r : Regs} (h : RegsInv r) (hp : r.phase = .idle) (len : Nat) : RegsInv (genRegs len r) :=
  regsInv_of_idle ((genRegs_phase len r).trans hp) ((genRegs_pend len r).trans (h.pend_eq_zero hp)) (genRegs_ok len r)
    (by simpa using h.koff_le) (by simpa using h.ff_koff)

/-- VERIFY sets OK only where byte 25 is the sum it leaves in CSUM (R61). -/
theorem verifyRegs_keeps_inv {r : Regs} (h : RegsInv r) (hw : ∀ i : Fin Config.frameLen, r.win[i] ≠ none) :
    RegsInv (verifyRegs r) := by
  have hsum : (verifyRegs r).ok = true → r.win[25] = some (windowSum r.win) := by simp [checksumCell]
  exact {
    refill_iff_pending := h.refill_iff_pending
    pend_le := h.pend_le
    koff_le := h.koff_le
    ff_koff := h.ff_koff
    refill_cells := h.refill_cells
    ok_written := fun _ => by simpa only [verifyRegs_win] using hw
    ok_checksum := fun hok => by simpa only [verifyRegs_win] using hsum hok
    ok_csum := fun hok => by simpa only [verifyRegs_win, verifyRegs_csum] using (hsum hok).symm }

/-- The window shifted by `k > 0` has its last `k` cells unwritten, and `k` bytes are pending (R66). -/
theorem alignShift_inv {k : Fin Config.frameLen} (hk : k.val ≠ 0) (r : Regs) :
    RegsInv (setAlignResult false (BitVec.ofNat 5 k.val) <|
      startRefill (BitVec.ofNat 5 k.val) <| setWindow (shiftWindow k.val r.win) r) := by
  have hlt : k.val < 26 := k.isLt
  have hkn : (BitVec.ofNat 5 k.val).toNat = k.val := by
    rw [BitVec.toNat_ofNat]
    omega
  refine regsInv_of_refill rfl ?_ ?_ rfl ?_ (by simp) fun i hi => ?_
  · simp only [setAlignResult_pend, startRefill_pend, hkn]
    omega
  · simp only [setAlignResult_pend, startRefill_pend, hkn]
    omega
  · simp only [setAlignResult_koff, hkn]
    omega
  · simp only [setAlignResult_pend, startRefill_pend, hkn] at hi
    have hlast : ¬ i.val + k.val < 26 := by omega
    exact (shiftWindow_get k.val r.win i).trans (dif_neg hlast)

/-- ALIGN stays in IDLE where there is no marker or the marker stands at 0 (R66). -/
theorem alignRegs_keeps_inv {r : Regs} (h : RegsInv r) (hp : r.phase = .idle) : RegsInv (alignRegs r) := by
  unfold alignRegs
  split
  next => exact regsInv_of_idle hp (h.pend_eq_zero hp) rfl (by simp) (by simp)
  next k _ =>
    split
    next => exact regsInv_of_idle hp (h.pend_eq_zero hp) rfl (by simp) (by simp)
    next hk => exact alignShift_inv hk r

theorem captureRegs_keeps_inv (r : Regs) : RegsInv (captureRegs r) :=
  regsInv_of_refill (by simp) (by simp) (by simp) (by simp) (by simp) (by simp) (by simp)

/-- RX writes the first unwritten cell, `26 - PEND`, and leaves the ones after it; the last byte ends the
refill (R68). -/
theorem rxRegs_keeps_inv {r : Regs} (h : RegsInv r) (hp : r.phase = .refill) (b : Byte) : RegsInv (rxRegs b r) := by
  have hpos := h.refill_iff_pending.1 hp
  have hle := h.pend_le
  have hcount : (r.pend - 1).toNat = r.pend.toNat - 1 := by bv_omega
  by_cases hlast : r.pend - 1 = 0
  case pos =>
    exact regsInv_of_idle ((rxRegs_phase b r).trans (if_pos hlast)) hlast (rxRegs_ok b r) h.koff_le h.ff_koff
  case neg =>
    have hmore : 0 < (r.pend - 1).toNat := by bv_omega
    refine regsInv_of_refill (((rxRegs_phase b r).trans (if_neg hlast)).trans hp) hmore ?_ (rxRegs_ok b r)
      h.koff_le h.ff_koff fun i hi => ?_
    · rw [rxRegs_pend, hcount]
      omega
    · rw [rxRegs_pend, hcount] at hi
      have hother : 26 - r.pend.toNat ≠ i.val := by omega
      calc (rxRegs b r).win[i] = r.win[i] := (writeCell_get _ b r i).trans (if_neg hother)
        _ = none := h.refill_cells hp i (by omega)

theorem exec_keeps_inv {i : Instr} {s t : State} (h : RegsInv s.regs) (hx : exec i s = .next t) : RegsInv t.regs := by
  cases exec_result hx with
  | fault i f => exact h
  | hold b hp => exact h
  | rd off data b => exact h
  | wr off data hp ho => exact writeCell_keeps_inv h hp off.val data
  | clear => exact clear_keeps_inv s.regs
  | gen len hl hp hw => exact genRegs_keeps_inv h hp len.toNat
  | verify hp hw => exact verifyRegs_keeps_inv h fun i => hw i (mem_allOffsets i)
  | align hp hw => exact alignRegs_keeps_inv h hp
  | capture hp => exact captureRegs_keeps_inv s.regs
  | rx b hp => exact rxRegs_keeps_inv h hp b

theorem step_keeps_inv {s t : State} (h : RegsInv s.regs) (hs : step s = .next t) : RegsInv t.regs := by
  cases step_result hs with
  | ended _ _ ht => exact ht ▸ h
  | noOffer es _ _ ht => exact ht ▸ h
  | rejected w es e _ _ ht => exact ht ▸ h
  | host w es i _ _ hx => exact exec_keeps_inv (s := { s with events := es }) h hx
  | offer b bs es _ _ hx => exact exec_keeps_inv (s := { s with events := es }) h hx

/-- R22: in every reachable state. -/
theorem reachable_inv {s : State} (hr : Reachable s) : RegsInv s.regs := by
  induction hr with
  | start channel events => exact regsInv_reset
  | step _ hs ih => exact step_keeps_inv ih hs

/-- Where OK = 1 the window holds a frame that is valid by R43, with CSUM its byte 25 (R22). -/
theorem RegsInv.exists_verified_frame {r : Regs} (h : RegsInv r) (hok : r.ok = true) :
    ∃ f : Frame, (∀ i : Fin Config.frameLen, r.win[i] = some f[i]) ∧ f[25] = frameSum f ∧ r.csum = f[25] := by
  obtain ⟨f, hf⟩ := exists_frame_of_written (h.ok_written hok)
  have hlast : r.win[25] = some f[25] := hf 25
  refine ⟨f, hf, Option.some.inj ?_, Option.some.inj ?_⟩
  · rw [← hlast, h.ok_checksum hok, windowSum_frame hf]
  · rw [h.ok_csum hok, hlast]

/-! ### The obligations -/

/-- Settles O15: the invariants of R22 hold at the start of a run and every step keeps them. -/
theorem reachableStatesSatisfyTheInvariant : Obligations.ReachableStatesSatisfyTheInvariant := by
  intro s hr
  have h := reachable_inv hr
  exact ⟨h.refill_iff_pending, h.pend_le, h.koff_le, h.ff_koff, h.refill_cells, h.exists_verified_frame⟩

/-- Settles O12, field by field from `State.reset`; the reserved bits of STAT are 0 because the byte is 0. -/
theorem resetLeavesTheSpecsValues : Obligations.ResetLeavesTheSpecsValues := by
  have hcells (i : Fin Config.frameLen) : State.reset.regs.win[i] = none := Vector.getElem_replicate i.isLt
  have hstat : statByte State.reset.regs = 0 := by decide
  refine ⟨hcells, rfl, rfl, rfl, rfl, fun j _ => ?_, by decide, by decide, rfl, rfl⟩
  rw [hstat]
  exact BitVec.getLsbD_zero

end Sys2Proof.Machine

/-! The checksum as arithmetic (R55-R57): the 8-bit sum of a list of bytes in any order, and how a frame's sum differs
from that of a frame with other bytes. -/

namespace Sys2Proof.Machine

/-! ### The sum of a list of bytes -/

theorem sum8_eq_sum (xs : List Byte) : sum8 xs = xs.sum := by
  induction xs with
  | nil => rfl
  | cons b xs ih => rw [sum8_cons, List.sum_cons, ih]

theorem sum8_perm {xs ys : List Byte} (h : xs.Perm ys) : sum8 xs = sum8 ys := by
  rw [sum8_eq_sum, sum8_eq_sum, h.sum_eq]

theorem foldl_add_eq_sum8 (xs : List Byte) : xs.foldl (fun acc b => acc + b) 0 = sum8 xs := by
  rw [sum8_eq_sum, List.sum_eq_foldl]

theorem sum8_toNat (xs : List Byte) : (sum8 xs).toNat = (xs.map BitVec.toNat).sum % 256 := by
  simp [sum8]

theorem sum_toNat_le (xs : List Byte) : (xs.map BitVec.toNat).sum ≤ xs.length * 255 := by
  have hbyte : ∀ n ∈ xs.map BitVec.toNat, n ≤ 255 := by
    simp only [List.mem_map, forall_exists_index, and_imp, forall_apply_eq_imp_iff₂]
    intro b _
    omega
  simpa using List.sum_le_card_nsmul _ 255 hbyte

/-! ### The sum of a frame -/

theorem frameSum_eq_sum (f : Frame) : frameSum f = ∑ m : Fin Config.frameLen with m.val < 25, f[m] := by
  have hnodup : spanOffsets.Nodup := (List.nodup_finRange _).filter _
  have hspan : spanOffsets.toFinset = ({m | m.val < 25} : Finset (Fin Config.frameLen)) := by ext; simp
  rw [frameSum, sum8_eq_sum, ← map_spanOffsets_frame, ← List.sum_toFinset _ hnodup, hspan]

theorem frameSum_sub (f g : Frame) :
    frameSum g - frameSum f = ∑ m : Fin Config.frameLen with m.val < 25, (g[m] - f[m]) := by
  rw [frameSum_eq_sum, frameSum_eq_sum, Finset.sum_sub_distrib]

/-- A change of one byte in CK_SPAN changes the sum by as much (R57). -/
theorem frameSum_sub_of_one_changed {f g : Frame} {j : Fin Config.frameLen} (hj : j.val < 25)
    (h : ∀ m : Fin Config.frameLen, m ≠ j → g[m] = f[m]) : frameSum g - frameSum f = g[j] - f[j] := by
  rw [frameSum_sub]
  refine Finset.sum_eq_single_of_mem j (by simpa using hj) fun m _ hm => ?_
  rw [h m hm, sub_self]

/-- Two changes in CK_SPAN change the sum by their sum (R57). -/
theorem frameSum_sub_of_two_changed {f g : Frame} {i j : Fin Config.frameLen} (hi : i.val < 25) (hj : j.val < 25)
    (hij : i ≠ j) (h : ∀ m : Fin Config.frameLen, m ≠ i → m ≠ j → g[m] = f[m]) :
    frameSum g - frameSum f = (g[i] - f[i]) + (g[j] - f[j]) := by
  rw [frameSum_sub]
  refine Finset.sum_eq_add_of_mem i j (by simpa using hi) (by simpa using hj) hij fun m _ hm => ?_
  rw [h m hm.1 hm.2, sub_self]

/-- Byte 25 is not in the sum (R55). -/
theorem frameSum_congr {f g : Frame} (h : ∀ m : Fin Config.frameLen, m.val < 25 → g[m] = f[m]) :
    frameSum g = frameSum f := by
  rw [frameSum_eq_sum, frameSum_eq_sum]
  exact Finset.sum_congr rfl fun m hm => h m (by simpa using hm)

theorem frameValid_iff (f : Frame) : frameValid f = true ↔ f[25] = frameSum f := beq_iff_eq

/-- R57: a change of one byte of CK_SPAN moves the sum away from byte 25, a change of byte 25 moves it away from the
sum. -/
theorem byte25_ne_frameSum_of_one_changed {f g : Frame} {j : Fin Config.frameLen} (hf : f[25] = frameSum f)
    (hj : g[j] ≠ f[j]) (h : ∀ m : Fin Config.frameLen, m ≠ j → g[m] = f[m]) : g[25] ≠ frameSum g := by
  intro hg
  by_cases hspan : j.val < 25
  · have hlast : g[25] = f[25] := h 25 (Fin.ne_of_gt hspan)
    have hsum := frameSum_sub_of_one_changed hspan h
    rw [← hg, ← hf, hlast, sub_self] at hsum
    exact hj (sub_eq_zero.1 hsum.symm)
  · have hlast : j = 25 := Fin.ext (Nat.le_antisymm (Nat.le_of_lt_succ j.isLt) (Nat.le_of_not_lt hspan))
    subst hlast
    have hsum : frameSum g = frameSum f := frameSum_congr fun m hm => h m (Fin.ne_of_lt hm)
    exact hj (hg.trans (hsum.trans hf.symm))

/-- Settles O24: addition in eight bits is a commutative monoid, and each byte is at most 255. -/
theorem checksumIsAnEightBitSumInAnyOrder : Obligations.ChecksumIsAnEightBitSumInAnyOrder := by
  intro xs hlen
  refine ⟨?_, fun ys hperm => ?_, sum8_toNat xs⟩
  · have hle := sum_toNat_le xs
    rwa [hlen] at hle
  · rw [foldl_add_eq_sum8, sum8_perm hperm]

/-- Settles O25: the differences of the bytes of CK_SPAN add up to the difference of the sums. -/
theorem oneByteCorruptionIsDetected : Obligations.OneByteCorruptionIsDetected := by
  refine ⟨fun f g j hf hj h => ?_, fun f g hperm => sum8_perm hperm, fun f g i j d hi hj hij hgi hgj h => ?_⟩
  · rw [Bool.eq_false_iff, ne_eq, frameValid_iff]
    exact byte25_ne_frameSum_of_one_changed ((frameValid_iff f).1 hf) hj h
  · rw [← sub_eq_zero, frameSum_sub_of_two_changed hi hj hij h, hgi, hgj]
    ring

end Sys2Proof.Machine

/-! GEN and VERIFY (R58-R61): the four kinds of cell in GEN's window, and what VERIFY finds there. -/

namespace Sys2Proof.Machine

/-! ### Operations that complete -/

theorem exec_gen_of_written {s : State} {len : BitVec 5} (hl : len.toNat ≤ 20) (hp : s.regs.phase = .idle)
    (hw : ∀ i ∈ genOffsets len.toNat, s.regs.win[i] ≠ none) :
    exec (.gen len) s = .next (setRegs (genRegs len.toNat s.regs) s) := by
  show execGen len s = _
  rw [execGen, if_neg (Nat.not_lt.2 hl), unlessBusy_idle hp, unlessUnwritten_written hw, commit_done]

theorem exec_verify_of_written {s : State} (hp : s.regs.phase = .idle)
    (hw : ∀ i : Fin Config.frameLen, s.regs.win[i] ≠ none) :
    exec .verify s = .next (setRegs (verifyRegs s.regs) s) := by
  show execVerify s = _
  rw [execVerify, unlessBusy_idle hp, unlessUnwritten_written fun i _ => hw i, commit_done]

/-- An operation that records no fault did not fault (R82: a fault makes the record longer). -/
theorem recordFault_faults_ne (f : ModelFault) (s : State) : (recordFault f s).faults ≠ s.faults := by simp

/-- A GEN that records no fault has built its frame (R58). -/
theorem exec_gen_of_faults_eq {s t : State} {len : BitVec 5} (hx : exec (.gen len) s = .next t)
    (hf : t.faults = s.faults) :
    len.toNat ≤ 20 ∧ s.regs.phase = .idle ∧ (∀ i ∈ genOffsets len.toNat, s.regs.win[i] ≠ none) ∧
      t = setRegs (genRegs len.toNat s.regs) s := by
  cases exec_result hx with
  | fault _ f => exact absurd hf (recordFault_faults_ne f s)
  | gen _ hl hp hw => exact ⟨hl, hp, hw, rfl⟩

/-! ### GEN's window -/

theorem windowSum_congr {v w : Window} (h : ∀ i : Fin Config.frameLen, i.val < 25 → v[i] = w[i]) :
    windowSum v = windowSum w :=
  congrArg sum8 (List.filterMap_congr fun i hi => h i ((mem_spanOffsets i).1 hi))

theorem genWindow_marker (len : Nat) (w : Window) : (genWindow len w)[(0 : Fin Config.frameLen)] = some 0xAA := by
  rw [genWindow_get, genBody_get]
  rfl

theorem genWindow_operand {len : Nat} (hl : len ≤ 20) (w : Window) {i : Fin Config.frameLen} (hlo : 1 ≤ i.val)
    (hhi : i.val < 3 + len) : (genWindow len w)[i] = w[i] := by
  rw [genWindow_get, genBody_get, if_neg (by omega), if_neg (by omega), if_neg (by omega)]

theorem genWindow_padding (len : Nat) (w : Window) {i : Fin Config.frameLen} (hlo : 3 + len ≤ i.val)
    (hhi : i.val < 25) : (genWindow len w)[i] = some 0x00 := by
  rw [genWindow_get, genBody_get, if_neg (by omega), if_neg (by omega), if_pos ⟨hlo, hhi⟩]

/-- GEN's checksum is the sum of the window it stands in, since byte 25 is not in the sum (R55, R58). -/
theorem genWindow_checksum (len : Nat) (w : Window) :
    (genWindow len w)[(25 : Fin Config.frameLen)] = some (windowSum (genWindow len w)) := by
  have hsum : windowSum (genWindow len w) = windowSum (genBody len w) :=
    windowSum_congr fun i hi => by rw [genWindow_get, if_neg (Nat.ne_of_lt hi)]
  rw [genWindow_get, hsum]
  rfl

theorem genWindow_written {len : Nat} (hl : len ≤ 20) {w : Window} (hw : ∀ i ∈ genOffsets len, w[i] ≠ none)
    (i : Fin Config.frameLen) : (genWindow len w)[i] ≠ none := by
  have hlt : i.val < 26 := i.isLt
  have hkind : i = 0 ∨ (1 ≤ i.val ∧ i.val < 3 + len) ∨ (3 + len ≤ i.val ∧ i.val < 25) ∨ i = 25 := by
    simp only [Fin.ext_iff]
    change i.val = 0 ∨ _ ∨ _ ∨ i.val = 25
    omega
  rcases hkind with rfl | ⟨hlo, hhi⟩ | ⟨hlo, hhi⟩ | rfl
  · exact genWindow_marker len w ▸ Option.some_ne_none _
  · rw [genWindow_operand hl w hlo hhi]
    exact hw i ((mem_genOffsets len i).2 ⟨hlo, hhi⟩)
  · exact genWindow_padding len w hlo hhi ▸ Option.some_ne_none _
  · exact genWindow_checksum len w ▸ Option.some_ne_none _

/-! ### VERIFY after GEN -/

/-- A VERIFY of GEN's window sets OK (R59). -/
theorem verifyRegs_genRegs_ok (len : Nat) (r : Regs) : (verifyRegs (genRegs len r)).ok = true := by
  rw [verifyRegs_ok, genRegs_win, beq_iff_eq]
  exact genWindow_checksum len r.win

/-- The frame in a window is valid iff its cell 25 is the window's sum (R43, R55). -/
theorem frameValid_of_windowSum {w : Window} {f : Frame} (hf : ∀ i : Fin Config.frameLen, w[i] = some f[i])
    (hsum : w[(25 : Fin Config.frameLen)] = some (windowSum w)) : frameValid f = true := by
  rw [hf 25, windowSum_frame hf] at hsum
  exact (frameValid_iff f).2 (Option.some.inj hsum)

/-- The frame GEN leaves in the window (R59). -/
theorem genWindow_frame {len : Nat} (hl : len ≤ 20) {w : Window} (hw : ∀ i ∈ genOffsets len, w[i] ≠ none) :
    ∃ f : Frame, (∀ i : Fin Config.frameLen, (genWindow len w)[i] = some f[i]) ∧ frameValid f = true ∧ f[0] = 0xAA ∧
      (∀ i : Fin Config.frameLen, 1 ≤ i.val → i.val < 3 + len → some f[i] = w[i]) ∧
      (∀ i : Fin Config.frameLen, 3 + len ≤ i.val → i.val < 25 → f[i] = 0x00) := by
  obtain ⟨f, hf⟩ := exists_frame_of_written (genWindow_written hl hw)
  refine ⟨f, hf, frameValid_of_windowSum hf (genWindow_checksum len w), ?_, fun i hlo hhi => ?_, fun i hlo hhi => ?_⟩
  · exact Option.some.inj ((hf 0).symm.trans (genWindow_marker len w))
  · rw [← hf i, genWindow_operand hl w hlo hhi]
  · exact Option.some.inj ((hf i).symm.trans (genWindow_padding len w hlo hhi))

/-- Settles O28: a GEN that records no fault leaves `genWindow`, whose cell 25 is the sum VERIFY compares it with. -/
theorem genThenVerifySucceeds : Obligations.GenThenVerifySucceeds := by
  intro s t len hx hfaults
  obtain ⟨hl, hp, hw, rfl⟩ := exec_gen_of_faults_eq hx hfaults
  obtain ⟨f, hf, hvalid, hmarker, hoperands, hpadding⟩ := genWindow_frame hl hw
  have hwin : (setRegs (genRegs len.toNat s.regs) s).regs.win = genWindow len.toNat s.regs.win := by
    rw [setRegs_regs, genRegs_win]
  have hidle : (setRegs (genRegs len.toNat s.regs) s).regs.phase = .idle := by
    rw [setRegs_regs, genRegs_phase, hp]
  refine ⟨f, hwin ▸ hf, hvalid, hmarker, hoperands, hpadding, _,
    exec_verify_of_written hidle (hwin ▸ genWindow_written hl hw), ?_, setRegs_faults _ _⟩
  rw [setRegs_regs, setRegs_regs, verifyRegs_genRegs_ok]

end Sys2Proof.Machine

/-! ENCODE then DECODE (R54, R63): the host's words decode to their operations, a list of operations runs one after the
other whatever events come after it, and a list of writes and a list of reads are each one such run. -/

namespace Sys2Proof.Machine

/-! ### Encoded operations decode -/

theorem decodeBus_rdWord (off : Off) (data : Byte) : decodeBus (rdWord off data) = .ok (.rd off data) := by
  simp [decodeBus, rdWord]

theorem decodeBus_wrWord (off : Fin 31) (data : Byte) : decodeBus (wrWord off data) = .ok (.wr off data) := by
  have hoff : (BitVec.ofNat 5 off.val).toNat = off.val := wrOffset_toNat off
  simp [decodeBus, wrWord, hoff]

/-- A CMD write's word is read as its CMD byte (R46). -/
theorem decodeBus_cmdWord (arg : BitVec 5) (op : BitVec 3) :
    decodeBus (cmdWord arg op) = decodeCmd (cmdByte arg op) := by
  simp [decodeBus, cmdWord]

theorem decode_encode (i : Instr) : decode (encode i) = .ok i := by
  cases i with
  | rd off data => exact decodeBus_rdWord off data
  | wr off data => exact decodeBus_wrWord off data
  | gen len => exact (decodeBus_cmdWord len Config.opGen).trans (by simp [decodeCmd])
  | rx b => rfl
  | clear => decide
  | verify => decide
  | align => decide
  | capture => decide

/-! ### Runs of host operations -/

/-- The operations `is`, run as the next events of `s`, leave `t`, whatever events come after them. -/
def RunsTo (is : List Instr) (s t : State) : Prop :=
  ∀ es, runFor is.length { s with events := is.map eventOf ++ es } = .next { t with events := es }

/-- A host operation's step is the operation (R46, R53). -/
theorem step_eventOf {i : Instr} {w : BusWord} (hw : encode i = .bus w) {s t : State} (hx : exec i s = .next t)
    (es : List Event) : step { s with events := eventOf i :: es } = .next { t with events := es } := by
  have hev : eventOf i = .host w := by rw [eventOf, hw]
  have hdec : decode (.bus w) = .ok i := hw ▸ decode_encode i
  rw [step, hev, fetch_host rfl]
  simp only [runWord, hdec, exec_withEvents, hx, outcomeWithEvents]

theorem RunsTo.nil (s : State) : RunsTo [] s s := fun _ => rfl

theorem RunsTo.cons {i : Instr} {w : BusWord} {is : List Instr} {s t u : State} (hw : encode i = .bus w)
    (hx : exec i s = .next t) (h : RunsTo is t u) : RunsTo (i :: is) s u :=
  fun es => (runFor_succ (step_eventOf hw hx (is.map eventOf ++ es))).trans (h es)

theorem RunsTo.append {is js : List Instr} {s t u : State} (h : RunsTo is s t) (h' : RunsTo js t u) :
    RunsTo (is ++ js) s u := by
  intro es
  rw [List.length_append, List.map_append, List.append_assoc, runFor_add (h _), h' es]

/-- A run from a state that has the operations' events. -/
theorem RunsTo.runFor_eq {is : List Instr} {s t : State} (h : RunsTo is s t) {es : List Event}
    (hev : s.events = is.map eventOf ++ es) : runFor is.length s = .next { t with events := es } := by
  rw [← h es, ← hev]

/-! ### Writes of consecutive cells -/

/-- The bytes `bs` written to the cells from `off` on. -/
def writeCells (off : Nat) : List Byte → Regs → Regs
  | [], r => r
  | b :: bs, r => writeCells (off + 1) bs (writeCell off b r)

@[simp] theorem writeCells_phase (off : Nat) (bs : List Byte) (r : Regs) :
    (writeCells off bs r).phase = r.phase := by
  induction bs generalizing off r with
  | nil => rfl
  | cons b bs ih => rw [writeCells, ih, writeCell_phase]

theorem writeCells_get_before {off : Nat} (bs : List Byte) (r : Regs) {j : Fin Config.frameLen} (hj : j.val < off) :
    (writeCells off bs r).win[j] = r.win[j] := by
  induction bs generalizing off r with
  | nil => rfl
  | cons b bs ih => rw [writeCells, ih _ (Nat.lt_succ_of_lt hj), writeCell_get, if_neg (Nat.ne_of_gt hj)]

theorem writeCells_get {off k : Nat} {bs : List Byte} {b : Byte} (hb : bs[k]? = some b) (r : Regs)
    {j : Fin Config.frameLen} (hj : j.val = off + k) : (writeCells off bs r).win[j] = some b := by
  induction bs generalizing off k r with
  | nil => simp at hb
  | cons c bs ih =>
    rw [writeCells]
    cases k with
    | zero =>
      rw [Nat.add_zero] at hj
      rw [writeCells_get_before bs _ (by omega), writeCell_get, if_pos hj.symm]
      simpa using hb
    | succ k => exact ih (by simpa using hb) _ (by omega)

theorem regAt_ofNat {n : Nat} (hn : n < Config.frameLen) : regAt (BitVec.ofNat 5 n) = .win ⟨n, hn⟩ := by
  have hval : (BitVec.ofNat 5 n).toNat = n := Nat.mod_eq_of_lt (Nat.lt_trans hn (by decide))
  rw [regAt_win (by rwa [hval])]
  simp only [hval]

theorem exec_wrCell {s : State} (hp : s.regs.phase = .idle) {n : Nat} (hn : n < Config.frameLen) (b : Byte) :
    exec (wrCell n b) s = .next (setRegs (writeCell n b s.regs) s) := by
  have hmod : n % 31 = n := Nat.mod_eq_of_lt (Nat.lt_trans hn (by decide))
  have hreg : regAt (wrOffset (Fin.ofNat 31 n)) = .win ⟨n, hn⟩ := by
    rw [wrOffset, Fin.val_ofNat, hmod, regAt_ofNat hn]
  show execWr (Fin.ofNat 31 n) b s = _
  simp only [execWr, hreg, unlessBusy_idle hp, commit_done]

theorem runsTo_writes {s : State} (hp : s.regs.phase = .idle) {off : Nat} {bs : List Byte}
    (hlen : off + bs.length ≤ Config.frameLen) :
    RunsTo (bs.mapIdx fun k b => wrCell (off + k) b) s (setRegs (writeCells off bs s.regs) s) := by
  induction bs generalizing off s with
  | nil => exact .nil s
  | cons b bs ih =>
    rw [List.length_cons] at hlen
    have htail := ih (s := setRegs (writeCell off b s.regs) s) hp (off := off + 1) (by omega)
    have hshift : (fun k b => wrCell (off + 1 + k) b) = fun k b => wrCell (off + (k + 1)) b := by
      funext k b
      rw [Nat.add_assoc, Nat.add_comm 1 k]
    rw [hshift] at htail
    rw [List.mapIdx_cons]
    exact .cons rfl (exec_wrCell hp (n := off) (by omega) b) htail

/-! ### Reads -/

/-- A RD of `off` completes with `b` wherever the registers are `r`. -/
def ReadsAs (r : Regs) (off : Nat) (b : Byte) : Prop :=
  ∀ s : State, s.regs = r → exec (rdAt off) s = .next (returnByte b s)

theorem readsAs_win {r : Regs} (hp : r.phase = .idle) {i : Fin Config.frameLen} {b : Byte} (hb : r.win[i] = some b) :
    ReadsAs r i.val b := by
  rintro s rfl
  show execRd (BitVec.ofNat 5 i.val) 0x00 s = _
  simp only [execRd, regAt_ofNat i.isLt, unlessBusy_idle hp, Fin.eta, hb, commit_done]

theorem readsAs_stat (r : Regs) : ReadsAs r 0x1B (statByte r) := by
  rintro s rfl
  rfl

/-- The bytes returned to the host by one RD after the other. -/
def returnBytes (bs : List Byte) (s : State) : State := { s with returned := s.returned ++ bs }

@[simp] theorem returnBytes_regs (bs : List Byte) (s : State) : (returnBytes bs s).regs = s.regs := rfl

@[simp] theorem returnBytes_faults (bs : List Byte) (s : State) : (returnBytes bs s).faults = s.faults := rfl

@[simp] theorem returnBytes_returned (bs : List Byte) (s : State) :
    (returnBytes bs s).returned = s.returned ++ bs := rfl

@[simp] theorem returnBytes_channel (bs : List Byte) (s : State) : (returnBytes bs s).channel = s.channel := rfl

@[simp] theorem returnBytes_events (bs : List Byte) (s : State) : (returnBytes bs s).events = s.events := rfl

theorem runsTo_reads {r : Regs} {offs : List Nat} {bs : List Byte} (h : List.Forall₂ (ReadsAs r) offs bs) {s : State}
    (hr : s.regs = r) : RunsTo (offs.map rdAt) s (returnBytes bs s) := by
  induction h generalizing s with
  | nil =>
    have hnone : returnBytes [] s = s := by rw [returnBytes, List.append_nil]
    exact hnone.symm ▸ .nil s
  | @cons off b offs bs hb _ ih =>
    have hreturned : returnBytes (b :: bs) s = returnBytes bs (returnByte b s) := by
      simp only [returnBytes, returnByte, List.append_assoc, List.singleton_append]
    exact hreturned ▸ .cons rfl (hb s hr) (ih hr)

/-! ### ENCODE -/

/-- ENCODE's effect on the registers (R54): the address, the command and the payload written from offset 1 on, then
GEN. -/
def encodeRegs (a c : Byte) (p : List Byte) (r : Regs) : Regs := genRegs p.length (writeCells 1 (a :: c :: p) r)

@[simp] theorem encodeRegs_phase (a c : Byte) (p : List Byte) (r : Regs) :
    (encodeRegs a c p r).phase = r.phase := by
  rw [encodeRegs, genRegs_phase, writeCells_phase]

/-- The host's bytes are written in the cells GEN reads (R58). -/
theorem writeCells_genOffsets (a c : Byte) (p : List Byte) (r : Regs) :
    ∀ i ∈ genOffsets p.length, (writeCells 1 (a :: c :: p) r).win[i] ≠ none := by
  intro i hi
  obtain ⟨hlo, hhi⟩ := (mem_genOffsets p.length i).1 hi
  have hk : i.val - 1 < (a :: c :: p).length := by simp only [List.length_cons]; omega
  rw [writeCells_get (List.getElem?_eq_getElem hk) r (by omega)]
  exact Option.some_ne_none _

theorem encodeSeq_eq (a c : Byte) (p : List Byte) :
    encodeSeq a c p =
      ((a :: c :: p).mapIdx fun k b => wrCell (1 + k) b) ++ [.gen (BitVec.ofNat 5 p.length)] := by
  have hpay (k : Nat) : 1 + (k + 1 + 1) = 3 + k := by omega
  simp [encodeSeq, List.mapIdx_cons, hpay]

theorem runsTo_encodeSeq {s : State} (hp : s.regs.phase = .idle) (a c : Byte) {p : List Byte} (hlen : p.length ≤ 20) :
    RunsTo (encodeSeq a c p) s (setRegs (encodeRegs a c p s.regs) s) := by
  have hwrites : RunsTo _ s (setRegs (writeCells 1 (a :: c :: p) s.regs) s) :=
    runsTo_writes hp (by rw [List.length_cons, List.length_cons]; show _ ≤ 26; omega)
  have hl : (BitVec.ofNat 5 p.length).toNat = p.length := Nat.mod_eq_of_lt (by omega)
  have hgen := exec_gen_of_written (s := setRegs (writeCells 1 (a :: c :: p) s.regs) s)
    (len := BitVec.ofNat 5 p.length) (by rwa [hl]) (by rw [setRegs_regs, writeCells_phase, hp])
    (by rw [hl]; exact writeCells_genOffsets a c p s.regs)
  rw [hl] at hgen
  rw [encodeSeq_eq]
  exact hwrites.append (.cons rfl hgen (.nil _))

theorem encodeRegs_written (a c : Byte) {p : List Byte} (hlen : p.length ≤ 20) (r : Regs) (i : Fin Config.frameLen) :
    (encodeRegs a c p r).win[i] ≠ none := by
  rw [encodeRegs, genRegs_win]
  exact genWindow_written hlen (writeCells_genOffsets a c p r) i

/-- The payload as the frame holds it: padded with zeros to 20 bytes (R63). -/
def padded (p : List Byte) : List Byte := p ++ List.replicate (20 - p.length) 0x00

/-- After ENCODE the command and the padded payload stand from offset 2 on (R59). -/
theorem encodeRegs_get (a c : Byte) {p : List Byte} (hlen : p.length ≤ 20) (r : Regs) {k : Nat} {b : Byte}
    (hb : (c :: padded p)[k]? = some b) {i : Fin Config.frameLen} (hi : i.val = 2 + k) :
    (encodeRegs a c p r).win[i] = some b := by
  rw [encodeRegs, genRegs_win]
  rw [padded, ← List.cons_append] at hb
  by_cases hk : k < (c :: p).length
  · rw [List.getElem?_append_left hk] at hb
    rw [List.length_cons] at hk
    rw [genWindow_operand hlen _ (by omega) (by omega)]
    exact writeCells_get (k := k + 1) (by simpa using hb) r (by omega)
  · rw [List.getElem?_append_right (Nat.le_of_not_lt hk), List.getElem?_replicate] at hb
    rw [List.length_cons] at hk hb
    split at hb
    next hpad =>
      rw [genWindow_padding p.length _ (by omega) (by omega)]
      exact hb
    next => contradiction

/-! ### DECODE -/

theorem statByte_bit0 (r : Regs) : (statByte r).getLsbD 0 = r.ok := by
  cases hok : r.ok <;> simp [statByte, hok]

theorem decodeSeq_eq : decodeSeq = .verify :: (0x1B :: (List.range 21).map (2 + ·)).map rdAt := rfl

/-- DECODE of a written window returns STAT as VERIFY left it, then the bytes of the fields it reads (R62). -/
theorem runsTo_decodeSeq {s : State} (hp : s.regs.phase = .idle) (hw : ∀ i : Fin Config.frameLen, s.regs.win[i] ≠ none)
    {bs : List Byte} (hbs : List.Forall₂ (ReadsAs (verifyRegs s.regs)) ((List.range 21).map (2 + ·)) bs) :
    RunsTo decodeSeq s
      (returnBytes (statByte (verifyRegs s.regs) :: bs) (setRegs (verifyRegs s.regs) s)) := by
  rw [decodeSeq_eq]
  exact .cons rfl (exec_verify_of_written hp hw) (runsTo_reads (.cons (readsAs_stat _) hbs) rfl)

/-- After ENCODE and the VERIFY of DECODE, the fields read as the command and the padded payload (R63). -/
theorem encodeRegs_reads (a c : Byte) {p : List Byte} (hlen : p.length ≤ 20) {r : Regs} (hp : r.phase = .idle) :
    List.Forall₂ (ReadsAs (verifyRegs (encodeRegs a c p r))) ((List.range 21).map (2 + ·)) (c :: padded p) := by
  refine List.forall₂_iff_get.2 ⟨by simp [padded]; omega, fun k hk hk' => ?_⟩
  have hlt : 2 + k < 26 := by
    rw [List.length_map, List.length_range] at hk
    omega
  have hoff : ((List.range 21).map (2 + ·)).get ⟨k, hk⟩ = 2 + k := by simp
  rw [hoff, List.get_eq_getElem]
  refine readsAs_win (i := ⟨2 + k, hlt⟩) (by rw [verifyRegs_phase, encodeRegs_phase, hp]) ?_
  rw [verifyRegs_win]
  exact encodeRegs_get a c hlen r (List.getElem?_eq_getElem hk') rfl

/-- Settles O45: ENCODE leaves the padded payload in a window whose VERIFY sets OK, and DECODE reads it. -/
theorem decodeReturnsWhatEncodeWasGiven : Obligations.DecodeReturnsWhatEncodeWasGiven := by
  intro s a c p es hp hlen hev
  have hencode := runsTo_encodeSeq hp a c hlen
  have hdecode := runsTo_decodeSeq (s := setRegs (encodeRegs a c p s.regs) s)
    (by rw [setRegs_regs, encodeRegs_phase, hp]) (encodeRegs_written a c hlen s.regs) (encodeRegs_reads a c hlen hp)
  refine ⟨_, statByte (verifyRegs (encodeRegs a c p s.regs)), (hencode.append hdecode).runFor_eq hev, ?_, ?_, ?_, ?_⟩
  · simp [padded]
  · rw [statByte_bit0, encodeRegs, verifyRegs_genRegs_ok]
  · rw [returnBytes_faults, setRegs_faults, setRegs_faults]
  · rfl

end Sys2Proof.Machine

/-! The frame aligner (R64-R70): the marker search, ALIGN at the first marker, a refill as one run of RX offers, and the
recovery of a frame from behind garbage. -/

namespace Sys2Proof.Machine

/-! ### The marker search -/

/-- The search takes the first offset holding the marker, so no lower one holds it (R65). -/
theorem findMarker_eq_some {w : Window} {k : Fin Config.frameLen} :
    findMarker w = some k ↔ w[k] = some 0xAA ∧ ∀ j : Fin Config.frameLen, j < k → w[j] ≠ some 0xAA := by
  rw [findMarker, allOffsets, ← Fin.find?_eq_find?_finRange, Fin.find?_eq_some_iff]
  simp only [beq_iff_eq, beq_eq_false_iff_ne]

/-- Settles O32, from the two outcomes of the search. -/
theorem markerSearchFindsTheLowestMarker : Obligations.MarkerSearchFindsTheLowestMarker :=
  fun _ => ⟨fun _ => findMarker_eq_some, findMarker_eq_none⟩

/-! ### Operations that complete -/

theorem exec_capture_of_idle {s : State} (hp : s.regs.phase = .idle) :
    exec .capture s = .next (setRegs (captureRegs s.regs) s) := by
  show execCapture s = _
  rw [execCapture, unlessBusy_idle hp, commit_done]

theorem exec_align_of_written {s : State} (hp : s.regs.phase = .idle)
    (hw : ∀ i : Fin Config.frameLen, s.regs.win[i] ≠ none) :
    exec .align s = .next (setRegs (alignRegs s.regs) s) := by
  show execAlign s = _
  rw [execAlign, unlessBusy_idle hp, unlessUnwritten_written fun i _ => hw i, commit_done]

theorem exec_rx_of_refill {s : State} (hp : s.regs.phase = .refill) (b : Byte) :
    exec (.rx b) s = .next (takeFromChannel (setRegs (rxRegs b s.regs) s)) := by
  show execRx b s = _
  simp only [execRx, hp, commit_done]

/-! ### ALIGN at a marker -/

theorem shiftWindow_zero (w : Window) : shiftWindow 0 w = w :=
  Vector.ext fun i hi => (shiftWindow_get 0 w ⟨i, hi⟩).trans (dif_pos hi)

/-- ALIGN where the first marker stands at `k`, with `k = 0` as the shift by nothing (R66). -/
theorem alignRegs_of_marker {r : Regs} {k : Fin Config.frameLen} (h : findMarker r.win = some k) :
    alignRegs r = { r with
      win := shiftWindow k.val r.win, ok := false, ff := false, koff := BitVec.ofNat 5 k.val,
      pend := if k.val = 0 then r.pend else BitVec.ofNat 5 k.val,
      phase := if k.val = 0 then r.phase else .refill } := by
  simp only [alignRegs, h]
  split
  next hk => simp only [setAlignResult, hk, shiftWindow_zero, BitVec.ofNat_eq_ofNat]
  next => simp only [setAlignResult, startRefill, setWindow]

/-- With no byte pending before it, ALIGN leaves as many bytes pending as it dropped. -/
theorem alignRegs_pend_of_marker {r : Regs} {k : Fin Config.frameLen} (h : findMarker r.win = some k)
    (hn : r.pend = 0) : (alignRegs r).pend.toNat = k.val := by
  have hlt : k.val < 32 := Nat.lt_trans k.isLt (by decide)
  rw [alignRegs_of_marker h]
  split
  next hk => rw [hn, hk]; rfl
  next => exact Nat.mod_eq_of_lt hlt

/-- ALIGN starts a refill iff it has bytes to fetch (R66). -/
theorem alignRegs_refill_iff_pending {r : Regs} {k : Fin Config.frameLen} (h : findMarker r.win = some k)
    (hp : r.phase = .idle) (hn : r.pend = 0) :
    (alignRegs r).phase = .refill ↔ 0 < (alignRegs r).pend.toNat := by
  rw [alignRegs_pend_of_marker h hn, alignRegs_of_marker h, Nat.pos_iff_ne_zero]
  by_cases hk : k.val = 0 <;> simp [hk, hp]

/-! ### A refill as one run -/

@[simp] theorem writeCells_ff (off : Nat) (bs : List Byte) (r : Regs) : (writeCells off bs r).ff = r.ff := by
  induction bs generalizing off r with
  | nil => rfl
  | cons b bs ih => rw [writeCells, ih, writeCell_ff]

@[simp] theorem writeCells_koff (off : Nat) (bs : List Byte) (r : Regs) : (writeCells off bs r).koff = r.koff := by
  induction bs generalizing off r with
  | nil => rfl
  | cons b bs ih => rw [writeCells, ih, writeCell_koff]

/-- The count of pending bytes and the cells are written independently of each other. -/
theorem writeCells_countRefill (off : Nat) (bs : List Byte) (r : Regs) :
    writeCells off bs (countRefill r) = countRefill (writeCells off bs r) := by
  induction bs generalizing off r with
  | nil => rfl
  | cons b bs ih => exact ih (off + 1) (writeCell off b r)

/-- The registers after a refill with all its pending bytes `bs`: the trailing cells written, and IDLE (R68). -/
def refillRegs (bs : List Byte) (r : Regs) : Regs := endRefill (writeCells (Config.frameLen - bs.length) bs r)

@[simp] theorem refillRegs_ff (bs : List Byte) (r : Regs) : (refillRegs bs r).ff = r.ff := writeCells_ff _ bs r

@[simp] theorem refillRegs_koff (bs : List Byte) (r : Regs) : (refillRegs bs r).koff = r.koff := writeCells_koff _ bs r

@[simp] theorem refillRegs_pend (bs : List Byte) (r : Regs) : (refillRegs bs r).pend = 0 := rfl

@[simp] theorem refillRegs_phase (bs : List Byte) (r : Regs) : (refillRegs bs r).phase = .idle := rfl

theorem refillRegs_get_before {bs : List Byte} (r : Regs) {j : Fin Config.frameLen} (hj : j.val < 26 - bs.length) :
    (refillRegs bs r).win[j] = r.win[j] := writeCells_get_before bs r hj

theorem refillRegs_get {bs : List Byte} (hle : bs.length ≤ 26) (r : Regs) {j : Fin Config.frameLen} {k : Nat}
    (hj : j.val = 26 - bs.length + k) : (refillRegs bs r).win[j] = bs[k]? := by
  have hk : k < bs.length := by
    have hlt : j.val < 26 := j.isLt
    omega
  rw [List.getElem?_eq_getElem hk]
  exact writeCells_get (List.getElem?_eq_getElem hk) r hj

/-- Where no byte is pending and PHASE = IDLE, there is nothing to refill. -/
theorem refillRegs_nil {r : Regs} (hn : r.pend = 0) (hp : r.phase = .idle) : refillRegs [] r = r := by
  show { r with pend := 0, phase := .idle } = r
  rw [← hn, ← hp]

/-- One RX, then a refill with the bytes still pending (R68: the cell is `26 - PEND`). -/
theorem refillRegs_rxRegs {b : Byte} {bs : List Byte} {r : Regs} (hle : bs.length < 26)
    (hn : r.pend.toNat = bs.length + 1) :
    refillRegs bs (rxRegs b r) = refillRegs (b :: bs) r := by
  have hoff : refillOffset r = Config.frameLen - (b :: bs).length := by rw [refillOffset, hn, List.length_cons]
  have hnext : Config.frameLen - bs.length = Config.frameLen - (b :: bs).length + 1 := by
    rw [List.length_cons]
    show 26 - bs.length = 26 - (bs.length + 1) + 1
    omega
  rw [refillRegs, rxRegs, writeCells_countRefill, hoff, hnext]
  rfl

/-- After an RX, a refill is still running iff a byte is still pending (R22). -/
theorem rxRegs_refill_iff_pending {r : Regs} (hp : r.phase = .refill) (b : Byte) :
    (rxRegs b r).phase = .refill ↔ 0 < (rxRegs b r).pend.toNat := by
  rw [rxRegs_phase, rxRegs_pend, hp]
  split
  next h =>
    rw [h]
    exact iff_of_false (by simp) (Nat.lt_irrefl 0)
  next h =>
    have hpos : 0 < (r.pend - 1).toNat := by bv_omega
    exact iff_of_true rfl hpos

/-- The machine after a refill with the bytes `bs`, where `rest` was behind them in the channel. -/
def refillState (bs rest : List Byte) (s : State) : State :=
  { s with regs := refillRegs bs s.regs, channel := rest }

/-- An offer of the channel's oldest byte is an RX of it (R3, R40). -/
theorem step_rxOffer {s t : State} {b : Byte} {rest : List Byte} (hc : s.channel = b :: rest)
    (hx : exec (.rx b) s = .next t) (es : List Event) :
    step { s with events := .rxOffer :: es } = .next { t with events := es } := by
  have hfetch : fetch { s with events := .rxOffer :: es } = _ := fetch_rxOffer rfl hc
  rw [step, hfetch]
  simp only [runWord, decode, exec_withEvents, hx, outcomeWithEvents]

theorem RunsTo.cons_rx {is : List Instr} {s t u : State} {b : Byte} {rest : List Byte} (hc : s.channel = b :: rest)
    (hx : exec (.rx b) s = .next t) (h : RunsTo is t u) : RunsTo (.rx b :: is) s u :=
  fun es => (runFor_succ (step_rxOffer hc hx (is.map eventOf ++ es))).trans (h es)

/-- A refill whose pending bytes are all in the channel runs to its end; with none pending it is over (R68). -/
theorem runsTo_refill {s : State} {bs rest : List Byte} (hphase : s.regs.phase = .refill ↔ 0 < s.regs.pend.toNat)
    (hle : bs.length ≤ 26) (hn : s.regs.pend.toNat = bs.length) (hc : s.channel = bs ++ rest) :
    RunsTo (bs.map .rx) s (refillState bs rest s) := by
  induction bs generalizing s with
  | nil =>
    have hpend : s.regs.pend = 0 := BitVec.eq_of_toNat_eq hn
    have hidle : s.regs.phase = .idle := (phase_cases _).resolve_right (by rw [hphase, hn]; exact Nat.lt_irrefl 0)
    have hover : refillState [] rest s = s := by
      rw [refillState, refillRegs_nil hpend hidle, ← List.nil_append rest, ← hc]
    rw [hover]
    exact .nil s
  | cons b bs ih =>
    rw [List.length_cons] at hn hle
    have hp : s.regs.phase = .refill := hphase.2 (by omega)
    have htail := ih (s := takeFromChannel (setRegs (rxRegs b s.regs) s)) (rxRegs_refill_iff_pending hp b)
      (Nat.le_of_lt hle) (by simp only [takeFromChannel_regs, setRegs_regs, rxRegs_pend]; bv_omega)
      (by rw [takeFromChannel_channel, setRegs_channel, hc]; rfl)
    have hstate : refillState bs rest (takeFromChannel (setRegs (rxRegs b s.regs) s)) =
        refillState (b :: bs) rest s := by
      simp only [refillState, takeFromChannel_regs, setRegs_regs, refillRegs_rxRegs hle hn]
      rfl
    rw [← hstate]
    exact .cons_rx hc (exec_rx_of_refill hp b) htail

/-! ### CAPTURE and ALIGN with their refills -/

/-- The registers after CAPTURE and the first 26 bytes of a channel (R64, R68). -/
def capturedRegs (bs : List Byte) (r : Regs) : Regs := refillRegs (bs.take 26) (captureRegs r)

theorem capturedRegs_get {bs : List Byte} (hlen : 26 ≤ bs.length) (r : Regs) (i : Fin Config.frameLen) :
    (capturedRegs bs r).win[i] = bs[i.val]? := by
  have htake : (bs.take 26).length = 26 := List.length_take_of_le hlen
  rw [capturedRegs, refillRegs_get htake.le _ (k := i.val) (by omega), List.getElem?_take_of_lt i.isLt]

theorem capturedRegs_written {bs : List Byte} (hlen : 26 ≤ bs.length) (r : Regs) (i : Fin Config.frameLen) :
    (capturedRegs bs r).win[i] ≠ none := by
  have hi : i.val < bs.length := Nat.lt_of_lt_of_le i.isLt hlen
  rw [capturedRegs_get hlen, List.getElem?_eq_getElem hi]
  exact Option.some_ne_none _

/-- The machine after CAPTURE and the first 26 bytes of a channel that held `bs ++ rest`. -/
def capturedState (bs rest : List Byte) (s : State) : State :=
  { s with regs := capturedRegs bs s.regs, channel := bs.drop 26 ++ rest }

theorem runsTo_capture {s : State} {bs rest : List Byte} (hp : s.regs.phase = .idle) (hlen : 26 ≤ bs.length)
    (hc : s.channel = bs ++ rest) :
    RunsTo (.capture :: (bs.take 26).map .rx) s (capturedState bs rest s) := by
  have htake : (bs.take 26).length = 26 := List.length_take_of_le hlen
  have hchannel : s.channel = bs.take 26 ++ (bs.drop 26 ++ rest) := by
    rw [hc, ← List.append_assoc, List.take_append_drop]
  have hrefill := runsTo_refill (s := setRegs (captureRegs s.regs) s) (by simp) htake.le
    (by rw [setRegs_regs, captureRegs_pend, htake]; rfl) hchannel
  exact .cons rfl (exec_capture_of_idle hp) hrefill

/-- The registers after ALIGN and the bytes behind the first 26, once `bs` has been captured (R66, R68). -/
def realignedRegs (bs : List Byte) (r : Regs) : Regs := refillRegs (bs.drop 26) (alignRegs (capturedRegs bs r))

/-- The new bytes fill the cells ALIGN left unwritten: the window holds the channel's bytes from the marker on. -/
theorem realignedRegs_get {bs : List Byte} {k : Fin Config.frameLen} (hlen : bs.length = 26 + k.val) {r : Regs}
    (h : findMarker (capturedRegs bs r).win = some k) (i : Fin Config.frameLen) :
    (realignedRegs bs r).win[i] = bs[i.val + k.val]? := by
  have hdrop : (bs.drop 26).length = k.val := by rw [List.length_drop, hlen, Nat.add_sub_cancel_left]
  have hk : k.val < 26 := k.isLt
  rw [realignedRegs]
  by_cases hi : i.val + k.val < 26
  · rw [refillRegs_get_before _ (by omega), alignRegs_of_marker h, shiftWindow_get, dif_pos hi]
    exact capturedRegs_get (by omega) r ⟨i.val + k.val, hi⟩
  · rw [refillRegs_get (by omega) _ (k := i.val + k.val - 26) (by omega), List.getElem?_drop,
      Nat.add_sub_cancel' (Nat.le_of_not_lt hi)]

theorem realignedRegs_ff {bs : List Byte} {k : Fin Config.frameLen} {r : Regs}
    (h : findMarker (capturedRegs bs r).win = some k) : (realignedRegs bs r).ff = false := by
  rw [realignedRegs, refillRegs_ff, alignRegs_of_marker h]

theorem realignedRegs_koff {bs : List Byte} {k : Fin Config.frameLen} {r : Regs}
    (h : findMarker (capturedRegs bs r).win = some k) : (realignedRegs bs r).koff.toNat = k.val := by
  rw [realignedRegs, refillRegs_koff, alignRegs_of_marker h]
  exact Nat.mod_eq_of_lt (Nat.lt_trans k.isLt (by decide))

/-- The machine after ALIGN and the bytes behind the first 26, once `bs` has been captured. -/
def realignedState (bs rest : List Byte) (s : State) : State :=
  { s with regs := realignedRegs bs s.regs, channel := rest }

theorem runsTo_align {s : State} {bs rest : List Byte} {k : Fin Config.frameLen} (hlen : bs.length = 26 + k.val)
    (h : findMarker (capturedRegs bs s.regs).win = some k) :
    RunsTo (.align :: (bs.drop 26).map .rx) (capturedState bs rest s) (realignedState bs rest s) := by
  have hdrop : (bs.drop 26).length = k.val := by rw [List.length_drop, hlen, Nat.add_sub_cancel_left]
  have halign := exec_align_of_written (s := capturedState bs rest s) rfl (capturedRegs_written (by omega) s.regs)
  have hpend : (alignRegs (capturedRegs bs s.regs)).pend.toNat = k.val := alignRegs_pend_of_marker h rfl
  have hrefill := runsTo_refill (s := setRegs (alignRegs (capturedRegs bs s.regs)) (capturedState bs rest s))
    (alignRegs_refill_iff_pending h rfl rfl) (hdrop.trans_le k.isLt.le) (hpend.trans hdrop.symm) rfl
  exact .cons rfl halign hrefill

/-! ### A frame behind garbage -/

theorem garbage_frame_get (g : List Byte) (f : Frame) (i : Fin Config.frameLen) :
    (g ++ f.toList)[i.val + g.length]? = some f[i] := by
  rw [List.getElem?_append_right (Nat.le_add_left _ _), Nat.add_sub_cancel]
  simp

/-- In a window of garbage without a marker, then a frame that begins with one, the search stops at the frame (R65). -/
theorem findMarker_behind_garbage {w : Window} {f : Frame} {g : List Byte} {k : Fin Config.frameLen}
    (hw : ∀ i : Fin Config.frameLen, w[i] = (g ++ f.toList)[i.val]?) (hk : k.val = g.length) (hf : f[0] = 0xAA)
    (hg : (0xAA : Byte) ∉ g) : findMarker w = some k := by
  refine findMarker_eq_some.2 ⟨?_, fun j hj hmarker => hg ?_⟩
  · have hfirst := garbage_frame_get g f 0
    rw [hw k, hk, ← Nat.zero_add g.length, ← hf]
    exact hfirst
  · have hlt : j.val < g.length := hk ▸ hj
    rw [hw j, List.getElem?_append_left hlt] at hmarker
    exact List.mem_of_getElem? hmarker

/-- VERIFY of a window that holds a frame sets OK iff the frame is valid (R43, R61). -/
theorem verifyRegs_ok_of_frame {r : Regs} {f : Frame} (hf : ∀ i : Fin Config.frameLen, r.win[i] = some f[i]) :
    (verifyRegs r).ok = frameValid f := by
  have hlast : checksumCell r.win = some f[25] := hf 25
  rw [verifyRegs_ok, hlast, windowSum_frame hf]
  rfl

/-- R70's operations on a channel that begins with `bs`, up to the VERIFY. -/
def recoverySeq (bs : List Byte) : List Instr :=
  (.capture :: (bs.take 26).map .rx) ++ .align :: (bs.drop 26).map .rx

/-- The bytes of RX are the channel's, so their events are plain offers. -/
theorem map_eventOf_rx (bs : List Byte) : (bs.map .rx).map eventOf = List.replicate bs.length .rxOffer := by
  rw [List.map_map]
  exact List.map_const' ..

theorem recoverySeq_events {bs : List Byte} {n : Nat} (hlen : bs.length = 26 + n) :
    (recoverySeq bs).map eventOf =
      [eventOf .capture] ++ List.replicate 26 .rxOffer ++ [eventOf .align] ++ List.replicate n .rxOffer := by
  have htake : (bs.take 26).length = 26 := List.length_take_of_le (by omega)
  have hdrop : (bs.drop 26).length = n := by rw [List.length_drop, hlen, Nat.add_sub_cancel_left]
  rw [recoverySeq, List.map_append, List.map_cons, List.map_cons, map_eventOf_rx, map_eventOf_rx, htake, hdrop,
    List.append_assoc]
  rfl

theorem recoverySeq_length {bs : List Byte} {n : Nat} (hlen : bs.length = 26 + n) :
    (recoverySeq bs).length = 28 + n := by
  rw [← List.length_map eventOf, recoverySeq_events hlen]
  simp only [List.length_append, List.length_singleton, List.length_replicate]

/-- Settles O46: the search stops at the frame, so the frame is what the second refill completes, and it is valid. -/
theorem frameBehindGarbageIsRecovered : Obligations.FrameBehindGarbageIsRecovered := by
  intro s f g rest es hp hvalid hf hle hg hc hev
  obtain ⟨k, hk⟩ : ∃ k : Fin Config.frameLen, k.val = g.length := ⟨⟨g.length, Nat.lt_succ_of_le hle⟩, rfl⟩
  have hlen : (g ++ f.toList).length = 26 + k.val := by
    rw [List.length_append, Vector.length_toList, hk, Nat.add_comm]
  have hmarker : findMarker (capturedRegs (g ++ f.toList) s.regs).win = some k :=
    findMarker_behind_garbage (capturedRegs_get (by omega) s.regs) hk hf hg
  have hwin : ∀ i : Fin Config.frameLen, (realignedRegs (g ++ f.toList) s.regs).win[i] = some f[i] := fun i => by
    rw [realignedRegs_get hlen hmarker, hk, garbage_frame_get]
  have hrun : RunsTo (recoverySeq (g ++ f.toList)) s (realignedState (g ++ f.toList) rest s) :=
    (runsTo_capture hp (by omega) hc).append (runsTo_align hlen hmarker)
  have hsteps := hrun.runFor_eq (es := eventOf .verify :: es)
    (by rw [hev, recoverySeq_events hlen, hk, List.append_assoc _ _ es]; rfl)
  rw [recoverySeq_length hlen, hk] at hsteps
  have hverify := step_eventOf rfl (exec_verify_of_written (s := realignedState (g ++ f.toList) rest s) rfl
    fun i => hwin i ▸ Option.some_ne_none _) es
  exact ⟨_, _, hsteps, hwin, (realignedRegs_koff hmarker).trans hk, realignedRegs_ff hmarker, rfl, rfl, rfl, hverify,
    (verifyRegs_ok_of_frame hwin).trans hvalid, rfl⟩

end Sys2Proof.Machine

/-! The framing failure (R79): what ALIGN leaves of a full window without a marker, and which operations can set STAT.FF. -/

namespace Sys2Proof.Machine

/-! ### ALIGN without a marker -/

/-- ALIGN where the search fails: the window is not written, and only OK, FF and K are (R65, R66). -/
theorem alignRegs_of_no_marker {r : Regs} (h : findMarker r.win = none) :
    alignRegs r = { r with ok := false, ff := true, koff := 0 } := by
  simp only [alignRegs, h, setAlignResult]

theorem findMarker_frame_eq_none {w : Window} {f : Frame} (hf : ∀ i : Fin Config.frameLen, w[i] = some f[i])
    (hm : ∀ i : Fin Config.frameLen, f[i] ≠ 0xAA) : findMarker w = none :=
  findMarker_eq_none.2 fun i hi => hm i (Option.some.inj ((hf i).symm.trans hi))

/-! ### The operations that set FF -/

/-- Every operation but ALIGN keeps FF or clears it: CLEAR and CAPTURE clear it, the others do not write it (R14). -/
theorem exec_keeps_or_clears_ff {i : Instr} {s t : State} (hi : i ≠ .align) (hx : exec i s = .next t) :
    t.regs.ff = s.regs.ff ∨ t.regs.ff = false := by
  cases exec_result hx with
  | fault i f => exact .inl rfl
  | hold b hp => exact .inl rfl
  | rd off data b => exact .inl rfl
  | wr off data hp ho => exact .inl (writeCell_ff off.val data s.regs)
  | clear => exact .inr rfl
  | gen len hl hp hw => exact .inl (genRegs_ff len.toNat s.regs)
  | verify hp hw => exact .inl (verifyRegs_ff s.regs)
  | align hp hw => exact absurd rfl hi
  | capture hp => exact .inr (captureRegs_ff s.regs)
  | rx b hp => exact .inl (rxRegs_ff b s.regs)

/-- Settles O34: a full window holds no unwritten cell, so ALIGN completes, and its search fails; every other operation
keeps FF or clears it. -/
theorem alignWithoutMarkerIsAFramingFailure : Obligations.AlignWithoutMarkerIsAFramingFailure := by
  refine ⟨fun s f hp hf hm => ?_, fun i s t hx hs ht => ?_⟩
  · have hw : ∀ i : Fin Config.frameLen, s.regs.win[i] ≠ none := fun i => by simp [hf i]
    rw [exec_align_of_written hp hw, alignRegs_of_no_marker (findMarker_frame_eq_none hf hm), setRegs]
  · by_contra hi
    rcases exec_keeps_or_clears_ff hi hx with hkeep | hclear
    · simp [hkeep, hs] at ht
    · simp [hclear] at ht

end Sys2Proof.Machine

/-! The words (R27, R45-R51): a word that decodes is the encoding of what it decodes to, the three kinds of bus word,
and the host addresses. The invariant of R22, step by step. -/

namespace Sys2Proof.Machine

/-! ### The decoder, by the checks of R49 -/

theorem decodeCmd_reservedOp {c : Byte} (h : cmdOp c = 5 ∨ cmdOp c = 6 ∨ cmdOp c = 7) :
    decodeCmd c = .error (.reservedOp c) := if_pos h

theorem decodeCmd_reservedField {c : Byte} (h : ¬ (cmdOp c = 5 ∨ cmdOp c = 6 ∨ cmdOp c = 7))
    (ha : cmdOp c ≠ 1 ∧ cmdArg c ≠ 0) : decodeCmd c = .error (.reservedField c) := (if_neg h).trans (if_pos ha)

/-- The operation that the fields of a CMD byte select: OP's, with ARG as LEN where OP is GEN (R47). -/
def selectedInstr (c : Byte) : Instr :=
  if cmdOp c = 0 then .clear else if cmdOp c = 1 then .gen (cmdArg c) else if cmdOp c = 2 then .verify
  else if cmdOp c = 3 then .align else .capture

/-- A CMD byte that passes the encoding checks decodes to what its fields select (R49). -/
theorem decodeCmd_of_legal {c : Byte} (h : ¬ (cmdOp c = 5 ∨ cmdOp c = 6 ∨ cmdOp c = 7))
    (ha : ¬ (cmdOp c ≠ 1 ∧ cmdArg c ≠ 0)) :
    decodeCmd c = .ok (selectedInstr c) := by
  have hcheck : decodeCmd c = _ := (if_neg h).trans (if_neg ha)
  rw [hcheck]
  simp only [selectedInstr, apply_ite Except.ok]

/-- The CMD byte of a decoded operation is the one the encoder writes (R47, R53). -/
theorem encode_of_decodeCmd {c : Byte} {i : Instr} (h : decodeCmd c = .ok i) :
    encode i = .bus (cmdWord (cmdArg c) (cmdOp c)) := by
  by_cases hop : cmdOp c = 5 ∨ cmdOp c = 6 ∨ cmdOp c = 7
  · rw [decodeCmd_reservedOp hop] at h
    contradiction
  by_cases hfield : cmdOp c ≠ 1 ∧ cmdArg c ≠ 0
  · rw [decodeCmd_reservedField hop hfield] at h
    contradiction
  rw [decodeCmd_of_legal hop hfield] at h
  cases h
  have harg (hgen : cmdOp c ≠ 1) : cmdArg c = 0 := by_contra fun hne => hfield ⟨hgen, hne⟩
  rcases cmdOp_cases c with hc | hc | hc | hc | hc | hc
  case inr.inl => simp only [selectedInstr, hc]; rfl
  case inr.inr.inr.inr.inr => exact absurd hc hop
  all_goals simp only [selectedInstr, harg (by rw [hc]; decide), hc]; rfl

/-! ### A word and its fields -/

/-- A CMD write's word is made of its CMD byte's fields (R45, R47). -/
theorem cmdWord_fields {w : BusWord} (hwe : busWe w = true) (hoff : busOff w = 0x1F) :
    cmdWord (cmdArg (busData w)) (cmdOp (busData w)) = w := by
  have hcmd : Config.cmdRegOff = busOff w := hoff.symm
  rw [cmdWord, cmdByte_fields, hcmd, ← hwe, busWord_fields]

theorem decodeBus_read {w : BusWord} (hwe : busWe w = false) :
    decodeBus w = .ok (.rd (busOff w) (busData w)) := if_pos hwe

theorem decodeBus_write {w : BusWord} (hwe : busWe w = true) (hoff : (busOff w).toNat < 31) :
    decodeBus w = .ok (.wr ⟨(busOff w).toNat, hoff⟩ (busData w)) := by
  rw [decodeBus, if_neg (by simp [hwe]), dif_pos hoff]

theorem decodeBus_cmd {w : BusWord} (hwe : busWe w = true) (hoff : busOff w = 0x1F) :
    decodeBus w = decodeCmd (busData w) := by
  rw [decodeBus, if_neg (by simp [hwe]), dif_neg (by simp [hoff])]

/-- 0x1F is the one offset that is not below 31 (R19). -/
theorem off_lt_or_eq_cmd (off : Off) : off.toNat < 31 ∨ off = 0x1F := by
  revert off
  decide

theorem encode_of_decodeBus {w : BusWord} {i : Instr} (h : decodeBus w = .ok i) : encode i = .bus w := by
  cases hwe : busWe w with
  | false =>
    rw [decodeBus_read hwe] at h
    cases h
    rw [encode, rdWord, ← hwe, busWord_fields]
  | true =>
    rcases off_lt_or_eq_cmd (busOff w) with hoff | hoff
    · rw [decodeBus_write hwe hoff] at h
      cases h
      rw [encode, wrWord, BitVec.ofNat_toNat, BitVec.setWidth_eq, ← hwe, busWord_fields]
    · rw [decodeBus_cmd hwe hoff] at h
      rw [encode_of_decodeCmd h, cmdWord_fields hwe hoff]

/-! ### The obligations on words -/

/-- Settles O1, operation by operation in `decode_encode`. -/
theorem decodeOfEncodeIsTheInstruction : Obligations.DecodeOfEncodeIsTheInstruction := decode_encode

/-- Settles O2: a bus word is made of its fields, and a CMD byte of its own. -/
theorem encodeOfDecodeIsTheWord : Obligations.EncodeOfDecodeIsTheWord := by
  intro u i h
  cases u with
  | bus w => exact encode_of_decodeBus h
  | rx b =>
    cases h
    rfl

/-- Settles O3, by the three kinds of bus word. -/
theorem busWordIsReadWriteOrCommand : Obligations.BusWordIsReadWriteOrCommand := by
  intro w
  refine ⟨decodeBus_read, fun hwe hoff => ?_, decodeBus_cmd⟩
  have hlt := (off_lt_or_eq_cmd (busOff w)).resolve_right hoff
  exact ⟨⟨_, hlt⟩, rfl, decodeBus_write hwe hlt⟩

/-- Settles O4, by decoding each word. -/
theorem writtenOutWordsDecode : Obligations.WrittenOutWordsDecode := by
  refine ⟨?_, ?_, ?_, ?_, ?_, ?_, ?_, rfl⟩ <;> decide

/-- Settles O5: the 32 offsets are the five-bit numbers, so an address less the base is one of them or none. -/
theorem hostAddressesReachOnlyTheirOffset : Obligations.HostAddressesReachOnlyTheirOffset := by
  intro addr off
  have hoff := off.isLt
  unfold offsetOfHostAddress
  split
  next hin =>
    obtain ⟨hbase, hspace⟩ : Config.ckfaBase ≤ addr ∧ addr < Config.ckfaBase + 32 := hin
    rw [Option.some.injEq]
    constructor
    · rintro rfl
      rw [BitVec.toNat_ofNat, Nat.mod_eq_of_lt (by omega), Nat.add_sub_cancel' hbase]
    · rintro rfl
      rw [Nat.add_sub_cancel_left, BitVec.ofNat_toNat, BitVec.setWidth_eq]
  next hout =>
    refine ⟨fun h => by contradiction, ?_⟩
    rintro rfl
    exact absurd ⟨Nat.le_add_right _ _, Nat.add_lt_add_left hoff _⟩ hout

/-! ### The obligations on the invariant -/

/-- Settles O13. -/
theorem resetSatisfiesTheInvariant : Obligations.ResetSatisfiesTheInvariant := regsInv_reset

/-- Settles O14: `step_keeps_inv`, operation by operation. -/
theorem everyStepKeepsTheInvariant : Obligations.EveryStepKeepsTheInvariant := fun _ _ => step_keeps_inv

end Sys2Proof.Machine

/-! Host access and control (R72-R75): what each RD and WR does, by the register its offset names. -/

namespace Sys2Proof.Machine

/-! ### RD -/

/-- The byte a RD returns where it needs no window cell: the four read-only registers (R72). -/
theorem exec_rd_csum (s : State) (data : Byte) : exec (.rd 0x1A data) s = .next (returnByte s.regs.csum s) := rfl

theorem exec_rd_stat (s : State) (data : Byte) : exec (.rd 0x1B data) s = .next (returnByte (statByte s.regs) s) := rfl

theorem exec_rd_koff (s : State) (data : Byte) : exec (.rd 0x1C data) s = .next (returnByte (koffByte s.regs) s) := rfl

theorem exec_rd_pend (s : State) (data : Byte) : exec (.rd 0x1D data) s = .next (returnByte (pendByte s.regs) s) := rfl

/-- R83: no register can be read at 0x1E and 0x1F, whatever the phase. -/
theorem exec_rd_noRegister {off : Off} (ho : off = 0x1E ∨ off = 0x1F) (s : State) (data : Byte) :
    exec (.rd off data) s = .next (recordFault (.busError off) s) := by
  rcases ho with rfl | rfl <;> rfl

theorem regAt_of_eq {off : Off} {i : Fin Config.frameLen} (h : off.toNat = i.val) : regAt off = .win i := by
  rw [regAt_win (h.trans_lt i.isLt)]
  exact congrArg RegName.win (Fin.ext h)

section WindowCell

variable {s : State} {off : Off} {i : Fin Config.frameLen} (ho : off.toNat = i.val) (data : Byte)
include ho

theorem exec_rd_written (hp : s.regs.phase = .idle) {b : Byte} (hb : s.regs.win[i] = some b) :
    exec (.rd off data) s = .next (returnByte b s) := by
  show execRd off data s = _
  simp only [execRd, regAt_of_eq ho, unlessBusy_idle hp, hb, commit_done]

theorem exec_rd_unwritten (hp : s.regs.phase = .idle) (hb : s.regs.win[i] = none) :
    exec (.rd off data) s = .next (recordFault (.unwrittenByte i) s) := by
  show execRd off data s = _
  simp only [execRd, regAt_of_eq ho, unlessBusy_idle hp, hb, commit_modelFault]

theorem exec_rd_busy (hp : s.regs.phase = .refill) :
    exec (.rd off data) s = .next (recordFault (.busy (rdWord off data)) s) := by
  show execRd off data s = _
  simp only [execRd, regAt_of_eq ho, unlessBusy_refill hp, commit_modelFault]

end WindowCell

/-- The registers of the register space, by offset (R19). -/
theorem off_cases (off : Off) :
    (∃ i : Fin Config.frameLen, off.toNat = i.val) ∨ off = 0x1A ∨ off = 0x1B ∨ off = 0x1C ∨ off = 0x1D ∨
      off = 0x1E ∨ off = 0x1F := by
  revert off
  decide

/-- What the reads of one offset do, whatever their DATA bits: they all return one byte, or all record one fault, or all
are turned away by the refill, each with its own bus word (R45, R72). -/
inductive ReadResult (s : State) (off : Off) : Prop where
  | byte (b : Byte) (h : ∀ data, exec (.rd off data) s = .next (returnByte b s))
  | fault (f : ModelFault) (h : ∀ data, exec (.rd off data) s = .next (recordFault f s))
  | busy (hp : s.regs.phase = .refill)
      (h : ∀ data, exec (.rd off data) s = .next (recordFault (.busy (rdWord off data)) s))

theorem exec_rd_result (s : State) (off : Off) : ReadResult s off := by
  rcases off_cases off with ⟨i, ho⟩ | rfl | rfl | rfl | rfl | ho
  · rcases phase_cases s.regs.phase with hp | hp
    · cases hb : s.regs.win[i] with
      | some b => exact .byte b fun data => exec_rd_written ho data hp hb
      | none => exact .fault _ fun data => exec_rd_unwritten ho data hp hb
    · exact .busy hp fun data => exec_rd_busy ho data hp
  · exact .byte _ (exec_rd_csum s)
  · exact .byte _ (exec_rd_stat s)
  · exact .byte _ (exec_rd_koff s)
  · exact .byte _ (exec_rd_pend s)
  · exact .fault _ (exec_rd_noRegister ho s)

/-! ### The bytes of the read-only registers -/

theorem statByte_bit1 (r : Regs) : (statByte r).getLsbD 1 = r.ff := pollIsFramingFailure_statByte r

theorem statByte_bit2 (r : Regs) : (statByte r).getLsbD 2 = decide (r.phase = .refill) := by
  have hpoll := pollIsIdle_statByte r
  rw [pollIsIdle, Bool.not_eq_eq_eq_not] at hpoll
  rw [hpoll]
  rcases phase_cases r.phase with hp | hp <;> rw [hp] <;> rfl

/-- STAT's bits 7:3 are reserved and read as 0 (R14). -/
theorem statByte_reserved (r : Regs) {j : Nat} (hj : 3 ≤ j) : (statByte r).getLsbD j = false := by
  have h0 : j ≠ 0 := by omega
  have h1 : j - 1 ≠ 0 := by omega
  have h2 : j - 2 ≠ 0 := by omega
  simp [statByte, BitVec.getLsbD_ofBool, h0, h1, h2]

/-- A five-bit number read as a byte has its own bits in 4:0 and 0 above (R15, R16). -/
theorem getLsbD_setWidth_byte (n : BitVec 5) (j : Nat) :
    (n.setWidth 8).getLsbD j = if j < 5 then n.getLsbD j else false := by
  rw [BitVec.getLsbD_setWidth]
  split
  next hj => rw [decide_eq_true (Nat.lt_trans hj (by decide)), Bool.true_and]
  next hj => rw [BitVec.getLsbD_of_ge n j (Nat.le_of_not_lt hj), Bool.and_false]

/-! ### WR -/

theorem regAt_wrOffset {off : Fin 31} {i : Fin Config.frameLen} (h : off.val = i.val) :
    regAt (wrOffset off) = .win i := regAt_of_eq ((wrOffset_toNat off).trans h)

theorem exec_wr_of_idle {s : State} {off : Fin 31} {i : Fin Config.frameLen} (ho : off.val = i.val)
    (hp : s.regs.phase = .idle) (data : Byte) :
    exec (.wr off data) s = .next (setRegs (writeCell i.val data s.regs) s) := by
  show execWr off data s = _
  simp only [execWr, regAt_wrOffset ho, unlessBusy_idle hp, commit_done]

theorem exec_wr_busy {s : State} {off : Fin 31} {i : Fin Config.frameLen} (ho : off.val = i.val)
    (hp : s.regs.phase = .refill) (data : Byte) :
    exec (.wr off data) s = .next (recordFault (.busy (wrWord off data)) s) := by
  show execWr off data s = _
  simp only [execWr, regAt_wrOffset ho, unlessBusy_refill hp, commit_modelFault]

/-- No register past the window can be written but CMD (R83). -/
theorem exec_wr_noRegister {off : Fin 31} (ho : 26 ≤ off.val) (s : State) (data : Byte) :
    exec (.wr off data) s = .next (recordFault (.busError (wrOffset off)) s) := by
  show execWr off data s = _
  unfold execWr
  split
  next i hi =>
    have hval := (regAt_eq_win hi).trans (wrOffset_toNat off)
    have hlt : i.val < 26 := i.isLt
    omega
  next => rfl

theorem writeCell_writeCell (i : Nat) (b : Byte) (r : Regs) : writeCell i b (writeCell i b r) = writeCell i b r := by
  have hwin : (writeCell i b (writeCell i b r)).win = (writeCell i b r).win := Vector.ext fun j hj => by
    have htwice := writeCell_get i b (writeCell i b r) ⟨j, hj⟩
    rw [writeCell_get i b r ⟨j, hj⟩] at htwice
    have honce := writeCell_get i b r ⟨j, hj⟩
    refine htwice.trans (Eq.trans ?_ honce.symm)
    split <;> rfl
  exact congrArg (setWindow · r) hwin

/-! ### The obligations -/

/-- Settles O16, register by register. -/
theorem readReturnsTheRegister : Obligations.ReadReturnsTheRegister := by
  rintro s off data b (⟨i, ho, hp, hb⟩ | ⟨rfl, rfl⟩ | ⟨rfl, rfl⟩ | ⟨rfl, rfl⟩ | ⟨rfl, rfl⟩)
  · exact exec_rd_written ho data hp hb
  · exact exec_rd_csum s data
  · exact exec_rd_stat s data
  · exact exec_rd_koff s data
  · exact exec_rd_pend s data

/-- Settles O17, by the three named bits of STAT and the reserved ones above them. -/
theorem readOnlyRegistersHaveTheirBits : Obligations.ReadOnlyRegistersHaveTheirBits := by
  intro r
  refine ⟨fun j => ?_, getLsbD_setWidth_byte r.koff, getLsbD_setWidth_byte r.pend⟩
  split_ifs with h0 h1 h2
  · rw [h0, statByte_bit0]
  · rw [h1, statByte_bit1]
  · rw [h2, statByte_bit2]
  · exact statByte_reserved r (by omega)

/-- Settles O18: the offset alone, then the phase, then the cell decides. -/
theorem readFaultsByOffsetThenPhaseThenCell : Obligations.ReadFaultsByOffsetThenPhaseThenCell :=
  fun s _ data => ⟨fun ho => exec_rd_noRegister ho s data, fun _ ho hp => exec_rd_busy ho data hp,
    fun _ ho hp hb => exec_rd_unwritten ho data hp hb⟩

/-- Settles O19: only the bus word that Busy records has the DATA bits in it. -/
theorem readIgnoresItsDataBits : Obligations.ReadIgnoresItsDataBits := by
  intro s t u off d e ht hu
  cases exec_rd_result s off with
  | byte b h =>
    cases (h d).symm.trans ht
    cases (h e).symm.trans hu
    exact ⟨rfl, rfl, rfl, rfl, rfl, fun _ => rfl⟩
  | fault f h =>
    cases (h d).symm.trans ht
    cases (h e).symm.trans hu
    exact ⟨rfl, rfl, rfl, rfl, rfl, fun _ => rfl⟩
  | busy hp h =>
    cases (h d).symm.trans ht
    cases (h e).symm.trans hu
    exact ⟨rfl, rfl, rfl, rfl, by simp, fun hidle => by simp [hp] at hidle⟩

/-- Settles O20. -/
theorem writeStoresTheByteAndClearsOk : Obligations.WriteStoresTheByteAndClearsOk := by
  intro s off data i ho hp
  refine ⟨_, exec_wr_of_idle ho hp data, ?_, fun j hj => ?_, rfl⟩
  · exact (writeCell_get _ _ _ i).trans (if_pos rfl)
  · exact (writeCell_get _ _ _ j).trans (if_neg fun h => hj (Fin.ext h.symm))

/-- Settles O21: past the window the offset alone decides, in it the phase. -/
theorem writeFaultsByOffsetThenPhase : Obligations.WriteFaultsByOffsetThenPhase :=
  fun s off data => ⟨fun ho => exec_wr_noRegister ho s data,
    fun ho hp => exec_wr_busy (i := ⟨off.val, ho⟩) rfl hp data⟩

/-- Settles O22: a RD returns a byte or records a fault, and the second write finds the byte it writes. -/
theorem readsAndRepeatedWritesHaveNoFurtherEffect : Obligations.ReadsAndRepeatedWritesHaveNoFurtherEffect := by
  refine ⟨fun s t off data hx => ?_, fun s t off data hx hf => ?_⟩
  · cases exec_result hx with
    | fault _ f => exact ⟨rfl, rfl, rfl⟩
    | rd _ _ b => exact ⟨rfl, rfl, rfl⟩
  · cases exec_result hx with
    | fault _ f => exact absurd hf (recordFault_faults_ne f s)
    | wr _ _ hp ho =>
      have hagain := exec_wr_of_idle (s := setRegs (writeCell off.val data s.regs) s) (i := ⟨off.val, ho⟩) rfl hp data
      rw [setRegs_regs, writeCell_writeCell] at hagain
      exact hagain

/-- Settles O23, by R74's assignments. -/
theorem clearEndsTheRefillAndKeepsTheWindow : Obligations.ClearEndsTheRefillAndKeepsTheWindow := fun _ => rfl

end Sys2Proof.Machine

/-! GEN, VERIFY, CAPTURE, ALIGN and RX one at a time (R58, R61, R64, R66, R68): what each leaves where it completes, and
where it faults. -/

namespace Sys2Proof.Machine

/-! ### The lowest unwritten cell -/

/-- A search over the window's offsets stops at the lowest one that meets the condition (R7). -/
theorem find?_allOffsets {p : Fin Config.frameLen → Bool} {i : Fin Config.frameLen} :
    allOffsets.find? p = some i ↔ p i = true ∧ ∀ j < i, p j = false := by
  rw [allOffsets, ← Fin.find?_eq_find?_finRange, Fin.find?_eq_some_iff]

theorem firstUnwritten_allOffsets {w : Window} {i : Fin Config.frameLen} (hi : w[i] = none)
    (hlow : ∀ j < i, w[j] ≠ none) : firstUnwritten w allOffsets = some i :=
  find?_allOffsets.2 ⟨by simp [hi], fun j hj => Option.isNone_eq_false_iff.2 (Option.isSome_iff_ne_none.2 (hlow j hj))⟩

theorem firstUnwritten_genOffsets {w : Window} {len : Nat} {i : Fin Config.frameLen} (hlo : 1 ≤ i.val)
    (hhi : i.val < 3 + len) (hi : w[i] = none)
    (hlow : ∀ j : Fin Config.frameLen, 1 ≤ j.val → j.val < i.val → w[j] ≠ none) :
    firstUnwritten w (genOffsets len) = some i := by
  rw [firstUnwritten, genOffsets, List.find?_filter]
  refine find?_allOffsets.2 ⟨by simp [hi, hlo, hhi], fun j hj => ?_⟩
  by_cases hj1 : 1 ≤ j.val
  · simpa using fun _ _ => hlow j hj1 hj
  · simp [hj1]

/-! ### Operations that fault -/

theorem exec_gen_lenRange {len : BitVec 5} (hl : 20 < len.toNat) (s : State) :
    exec (.gen len) s = .next (recordFault (.lenRange len) s) := by
  show execGen len s = _
  rw [execGen, if_pos hl, commit_modelFault]

theorem exec_gen_busy {s : State} {len : BitVec 5} (hl : len.toNat ≤ 20) (hp : s.regs.phase = .refill) :
    exec (.gen len) s = .next (recordFault (.busy (cmdWord len Config.opGen)) s) := by
  show execGen len s = _
  rw [execGen, if_neg (Nat.not_lt.2 hl), unlessBusy_refill hp, commit_modelFault]

theorem exec_gen_unwritten {s : State} {len : BitVec 5} {i : Fin Config.frameLen} (hl : len.toNat ≤ 20)
    (hp : s.regs.phase = .idle) (hi : firstUnwritten s.regs.win (genOffsets len.toNat) = some i) :
    exec (.gen len) s = .next (recordFault (.unwrittenByte i) s) := by
  show execGen len s = _
  rw [execGen, if_neg (Nat.not_lt.2 hl), unlessBusy_idle hp, unlessUnwritten_first hi, commit_modelFault]

theorem exec_verify_unwritten {s : State} {i : Fin Config.frameLen} (hp : s.regs.phase = .idle)
    (hi : firstUnwritten s.regs.win allOffsets = some i) :
    exec .verify s = .next (recordFault (.unwrittenByte i) s) := by
  show execVerify s = _
  rw [execVerify, unlessBusy_idle hp, unlessUnwritten_first hi, commit_modelFault]

theorem exec_align_unwritten {s : State} {i : Fin Config.frameLen} (hp : s.regs.phase = .idle)
    (hi : firstUnwritten s.regs.win allOffsets = some i) :
    exec .align s = .next (recordFault (.unwrittenByte i) s) := by
  show execAlign s = _
  rw [execAlign, unlessBusy_idle hp, unlessUnwritten_first hi, commit_modelFault]

/-- A held byte changes nothing (R69). -/
theorem exec_rx_of_idle {s : State} (hp : s.regs.phase = .idle) (b : Byte) : exec (.rx b) s = .next s := by
  show execRx b s = _
  simp only [execRx, hp, commit_hold]

/-- An offer of an empty channel is spent without an effect (R69). -/
theorem step_noOffer {s : State} {es : List Event} (he : s.events = .rxOffer :: es) (hc : s.channel = []) :
    step s = .next { s with events := es } := by
  rw [step, fetch_noOffer he hc]

/-! ### GEN and VERIFY -/

/-- GEN leaves in CSUM the byte it writes to cell 25 (R58). -/
theorem genRegs_csum_cell (len : Nat) (r : Regs) :
    (genWindow len r.win)[(25 : Fin Config.frameLen)] = some (genRegs len r).csum := by
  rw [genWindow_get, genRegs_csum]
  rfl

/-- What GEN writes: WIN, CSUM and STAT.OK (R58). -/
theorem genRegs_eq (len : Nat) (r : Regs) :
    genRegs len r = { r with win := genWindow len r.win, csum := (genRegs len r).csum, ok := false } := by
  rw [genRegs_csum, genRegs, setWindow]

/-- Settles O26: the frame is `genWindow_frame`'s, and its byte 25 is CSUM. -/
theorem genBuildsTheFrame : Obligations.GenBuildsTheFrame := by
  intro s len hl hp hcells
  have hw : ∀ i ∈ genOffsets len.toNat, s.regs.win[i] ≠ none := fun i hi => by
    obtain ⟨hlo, hhi⟩ := (mem_genOffsets len.toNat i).1 hi
    exact hcells i hlo hhi
  obtain ⟨f, hf, hvalid, hmarker, hoperands, hpadding⟩ := genWindow_frame hl hw
  have hcsum : (genRegs len.toNat s.regs).csum = f[25] :=
    Option.some.inj ((genRegs_csum_cell len.toNat s.regs).symm.trans (hf 25))
  refine ⟨_, f, exec_gen_of_written hl hp hw, hf, hmarker, hoperands, hpadding, (frameValid_iff f).1 hvalid, ?_⟩
  rw [← hcsum, setRegs_regs, genRegs_win, ← genRegs_eq]
  rfl

/-- Settles O27: LEN, then the phase, then the cells. -/
theorem genFaultsByLengthThenPhaseThenCell : Obligations.GenFaultsByLengthThenPhaseThenCell :=
  fun s _ => ⟨fun hl => exec_gen_lenRange hl s, exec_gen_busy,
    fun _ hl hp hlo hhi hi hlow => exec_gen_unwritten hl hp (firstUnwritten_genOffsets hlo hhi hi hlow)⟩

/-- VERIFY of a window that holds a frame (R61). -/
theorem verifyRegs_of_frame {r : Regs} {f : Frame} (hf : ∀ i : Fin Config.frameLen, r.win[i] = some f[i]) :
    verifyRegs r = { r with csum := frameSum f, ok := decide (frameSum f = f[25]) } := by
  have hok : frameValid f = decide (frameSum f = f[25]) :=
    Bool.eq_iff_iff.2 ((frameValid_iff f).trans (eq_comm.trans decide_eq_true_iff.symm))
  rw [← hok, ← verifyRegs_ok_of_frame hf, ← windowSum_frame hf]
  rfl

/-- Settles O29. -/
theorem verifyComparesTheSumWithByte25 : Obligations.VerifyComparesTheSumWithByte25 := by
  intro s f hp hf
  rw [exec_verify_of_written hp fun i => by simp [hf i], verifyRegs_of_frame hf]
  rfl

/-- Settles O30: both operations read all the cells, lowest first. -/
theorem verifyAndAlignFaultOnTheLowestUnwrittenCell : Obligations.VerifyAndAlignFaultOnTheLowestUnwrittenCell := by
  intro s i hp hi hlow
  have hfirst := firstUnwritten_allOffsets hi hlow
  exact ⟨exec_verify_unwritten hp hfirst, exec_align_unwritten hp hfirst⟩

/-! ### CAPTURE, ALIGN, RX -/

/-- Settles O31. -/
theorem captureEmptiesTheWindowAndStartsARefill : Obligations.CaptureEmptiesTheWindowAndStartsARefill :=
  fun _ hp => ⟨_, exec_capture_of_idle hp, fun i => Vector.getElem_replicate i.isLt, rfl, rfl⟩

theorem findMarker_frame {w : Window} {f : Frame} {k : Fin Config.frameLen}
    (hf : ∀ i : Fin Config.frameLen, w[i] = some f[i]) (hk : f[k] = 0xAA)
    (hlow : ∀ j : Fin Config.frameLen, j < k → f[j] ≠ 0xAA) : findMarker w = some k :=
  findMarker_eq_some.2 ⟨by rw [hf k, hk], fun j hj h => hlow j hj (Option.some.inj ((hf j).symm.trans h))⟩

/-- Settles O33: ALIGN with the first marker at `k` is the shift by `k`. -/
theorem alignShiftsToTheFirstMarker : Obligations.AlignShiftsToTheFirstMarker := by
  intro s f k hp hf hk hlow
  have hregs := alignRegs_of_marker (findMarker_frame hf hk hlow)
  have hwin : (alignRegs s.regs).win = shiftWindow k.val s.regs.win := by rw [hregs]
  refine ⟨_, exec_align_of_written hp fun i => by simp [hf i], fun i j hj => ?_, fun i hi => ?_, ?_⟩
  · have hlt : i.val + k.val < Config.frameLen := hj ▸ j.isLt
    rw [setRegs_regs, hwin, shiftWindow_get, dif_pos hlt, ← hf j]
    simp only [Fin.getElem_fin, hj]
  · have hlast : ¬ i.val + k.val < Config.frameLen := Nat.not_lt.2 hi
    rw [setRegs_regs, hwin, shiftWindow_get, dif_neg hlast]
  · rw [setRegs_regs, hwin, hregs, hp]
    rfl

/-- What RX writes: WIN and STAT.OK, PEND, and PHASE where the last byte ends the refill (R68). -/
theorem rxRegs_eq (b : Byte) (r : Regs) :
    rxRegs b r = { r with
      win := (rxRegs b r).win, ok := false, pend := (rxRegs b r).pend,
      phase := if r.pend - 1 = 0 then .idle else r.phase } := by
  cases r
  rfl

/-- Settles O35: RX counts PEND down and writes the cell it stood for. -/
theorem rxFillsTheNextCell : Obligations.RxFillsTheNextCell := by
  intro s b rest i hp hc hn
  have hi : i.val < 26 := i.isLt
  have hoff : refillOffset s.regs = i.val := by
    rw [refillOffset, hn]
    show 26 - (26 - i.val) = i.val
    omega
  have hcount : (s.regs.pend - 1).toNat = 25 - i.val := by bv_omega
  have hlast : s.regs.pend - 1 = 0 ↔ i.val = 25 := by
    rw [← BitVec.toNat_inj, hcount]
    show 25 - i.val = 0 ↔ i.val = 25
    omega
  have hcell (j : Fin Config.frameLen) := writeCell_get (refillOffset s.regs) b s.regs j
  rw [hoff] at hcell
  refine ⟨_, exec_rx_of_refill hp b, ?_, fun j hj => ?_, hcount, ?_⟩
  · rw [takeFromChannel_regs, setRegs_regs, rxRegs_win, hoff]
    exact (hcell i).trans (if_pos rfl)
  · rw [takeFromChannel_regs, setRegs_regs, rxRegs_win, hoff]
    exact (hcell j).trans (if_neg fun h => hj (Fin.ext h.symm))
  · have hregs := rxRegs_eq b s.regs
    simp only [hlast, hp] at hregs
    rw [takeFromChannel_regs, setRegs_regs, ← hregs, takeFromChannel, setRegs_channel, hc]
    rfl

/-- Settles O36: a hold leaves the byte in the channel, and an empty channel has none to offer. -/
theorem rxHoldsWhileIdleAndRefillWaits : Obligations.RxHoldsWhileIdleAndRefillWaits :=
  ⟨fun _ b hp => exec_rx_of_idle hp b, fun _ _ he hc => step_noOffer he hc⟩

end Sys2Proof.Machine

/-! One step of the machine: which operation it runs (R46, R49, R51), which fault it records (R81, R82), and which
registers an operation can change (R12-R17, R31, R99). -/

namespace Sys2Proof.Machine

/-! ### Every operation answers a next state -/

theorem commit_next (s : State) (e : Effect) : ∃ t, commit s e = .next t := by
  cases e with
  | done t => exact ⟨t, rfl⟩
  | modelFault f => exact ⟨_, rfl⟩
  | hold => exact ⟨s, rfl⟩

/-- Every operation is committed as one of the three outcomes of R9. -/
theorem exec_next (i : Instr) (s : State) : ∃ t, exec i s = .next t := by
  cases i with
  | rd off data => exact commit_next s _
  | wr off data => exact commit_next s _
  | clear => exact ⟨_, rfl⟩
  | gen len => exact commit_next s _
  | verify => exact commit_next s _
  | align => exact commit_next s _
  | capture => exact commit_next s _
  | rx b => exact commit_next s _

/-! ### The word a step runs -/

theorem step_of_decode_ok {s : State} {w : BusWord} {es : List Event} {i : Instr} (he : s.events = .host w :: es)
    (hd : decode (.bus w) = .ok i) : step s = exec i { s with events := es } := by
  rw [step, fetch_host he]
  simp only [runWord, hd]

theorem step_of_decode_error {s : State} {w : BusWord} {es : List Event} {e : DecodeError}
    (he : s.events = .host w :: es) (hd : decode (.bus w) = .error e) :
    step s = .next (recordFault (faultOfDecodeError e) { s with events := es }) := by
  rw [step, fetch_host he]
  simp only [runWord, hd, commit_modelFault]

theorem step_of_rxOffer {s : State} {b : Byte} {bs : List Byte} {es : List Event} (he : s.events = .rxOffer :: es)
    (hc : s.channel = b :: bs) : step s = exec (.rx b) { s with events := es } := by
  rw [step, fetch_rxOffer he hc]
  rfl

theorem tableWord_bus (w : BusWord) : tableWord 16 w.toNat = some (.bus w) := by
  have hlt : w.toNat < 2 ^ 14 := w.isLt
  simp only [tableWord, if_pos hlt, BitVec.ofNat_toNat, BitVec.setWidth_eq]
  rfl

theorem tableWord_rx (b : Byte) : tableWord 8 b.toNat = some (.rx b) := by
  have hlt : b.toNat < 2 ^ 8 := b.isLt
  simp only [tableWord, if_pos hlt, BitVec.ofNat_toNat, BitVec.setWidth_eq]
  rfl

/-! ### Busy -/

/-- In REFILL every operation on the window but RX is turned away with its own bus word (R31, R99). -/
theorem exec_busy_of_refill {s : State} {i : Instr} {w : BusWord} (hp : s.regs.phase = .refill)
    (hi : needsIdle i = true) (hw : encode i = .bus w) : exec i s = .next (recordFault (.busy w) s) := by
  cases i with
  | rd off data =>
    cases hw
    exact exec_rd_busy (i := ⟨off.toNat, of_decide_eq_true hi⟩) rfl data hp
  | wr off data =>
    cases hw
    exact exec_wr_busy (i := ⟨off.val, of_decide_eq_true hi⟩) rfl hp data
  | gen len =>
    cases hw
    exact exec_gen_busy (of_decide_eq_true hi) hp
  | verify =>
    cases hw
    show execVerify s = _
    rw [execVerify, unlessBusy_refill hp, commit_modelFault]
  | align =>
    cases hw
    show execAlign s = _
    rw [execAlign, unlessBusy_refill hp, commit_modelFault]
  | capture =>
    cases hw
    show execCapture s = _
    rw [execCapture, unlessBusy_refill hp, commit_modelFault]
  | clear => contradiction
  | rx b => contradiction

theorem selectedInstr_gen {c : Byte} (h : cmdOp c = 1) : selectedInstr c = .gen (cmdArg c) := by
  simp [selectedInstr, h]

/-- Of the operations a CMD byte selects with a legal LEN, CLEAR alone runs in REFILL (R49 check 4). -/
theorem needsIdle_selectedInstr {c : Byte} (hc : cmdOp c ≠ 0) (hl : ¬ (cmdOp c = 1 ∧ 20 < (cmdArg c).toNat)) :
    needsIdle (selectedInstr c) = true := by
  unfold selectedInstr
  split_ifs with hclear hgen
  · exact absurd hclear hc
  · exact decide_eq_true (Nat.le_of_not_lt fun hlt => hl ⟨hgen, hlt⟩)
  all_goals rfl

/-! ### What an operation can change -/

/-- An operation that adds to the fault record changes nothing else (R82). -/
theorem exec_faults {i : Instr} {s t : State} (hx : exec i s = .next t) :
    t.faults = s.faults ∨ ∃ f, t = recordFault f s := by
  cases exec_result hx with
  | fault i f => exact .inr ⟨f, rfl⟩
  | hold b hp => exact .inl rfl
  | rd off data b => exact .inl rfl
  | wr off data hp ho => exact .inl rfl
  | clear => exact .inl rfl
  | gen len hl hp hw => exact .inl (setRegs_faults _ s)
  | verify hp hw => exact .inl (setRegs_faults _ s)
  | align hp hw => exact .inl (setRegs_faults _ s)
  | capture hp => exact .inl (setRegs_faults _ s)
  | rx b hp => exact .inl (takeFromChannel_faults _)

/-- RX is accepted or held (R68, R69): it has no fault. -/
theorem exec_rx_faults {b : Byte} {s t : State} (hx : exec (.rx b) s = .next t) : t.faults = s.faults := by
  rcases phase_cases s.regs.phase with hp | hp
  · cases (exec_rx_of_idle hp b).symm.trans hx
    rfl
  · cases (exec_rx_of_refill hp b).symm.trans hx
    rfl

/-- Only an accepted RX takes a byte from the channel (R40). -/
theorem exec_channel {i : Instr} {s t : State} (hx : exec i s = .next t) :
    t.channel = s.channel ∨ (∃ b, i = .rx b) ∧ s.regs.phase = .refill ∧ t.channel = s.channel.tail := by
  cases exec_result hx with
  | fault i f => exact .inl rfl
  | hold b hp => exact .inl rfl
  | rd off data b => exact .inl rfl
  | wr off data hp ho => exact .inl rfl
  | clear => exact .inl rfl
  | gen len hl hp hw => exact .inl (setRegs_channel _ s)
  | verify hp hw => exact .inl (setRegs_channel _ s)
  | align hp hw => exact .inl (setRegs_channel _ s)
  | capture hp => exact .inl (setRegs_channel _ s)
  | rx b hp => exact .inr ⟨⟨b, rfl⟩, hp, rfl⟩

/-- Every write of the window clears OK (R14). -/
theorem exec_win_or_ok {i : Instr} {s t : State} (hx : exec i s = .next t) :
    t.regs.win = s.regs.win ∨ t.regs.ok = false := by
  cases exec_result hx with
  | fault i f => exact .inl rfl
  | hold b hp => exact .inl rfl
  | rd off data b => exact .inl rfl
  | wr off data hp ho => exact .inr (writeCell_ok off.val data s.regs)
  | clear => exact .inr rfl
  | gen len hl hp hw => exact .inr (genRegs_ok len.toNat s.regs)
  | verify hp hw => exact .inl (verifyRegs_win s.regs)
  | align hp hw => exact .inr (alignRegs_ok s.regs)
  | capture hp => exact .inr (captureRegs_ok s.regs)
  | rx b hp => exact .inr (rxRegs_ok b s.regs)

/-- In REFILL an operation keeps the registers, or is CLEAR or RX: the others complete in IDLE only (R31, R99). -/
theorem exec_regs_of_refill {i : Instr} {s t : State} (hp : s.regs.phase = .refill) (hx : exec i s = .next t) :
    t.regs = s.regs ∨ i = .clear ∨ ∃ b, i = .rx b := by
  have hidle : s.regs.phase ≠ .idle := by simp [hp]
  cases exec_result hx with
  | fault i f => exact .inl rfl
  | hold b h => exact .inl rfl
  | rd off data b => exact .inl rfl
  | wr off data h ho => exact absurd h hidle
  | clear => exact .inr (.inl rfl)
  | gen len hl h hw => exact absurd h hidle
  | verify h hw => exact absurd h hidle
  | align h hw => exact absurd h hidle
  | capture h => exact absurd h hidle
  | rx b h => exact .inr (.inr ⟨b, rfl⟩)

/-! ### The obligations -/

/-- Settles O6. -/
theorem stepRunsTheDecodedInstruction : Obligations.StepRunsTheDecodedInstruction :=
  ⟨fun _ _ _ _ he hd => step_of_decode_ok he hd, fun _ _ _ _ he hc => step_of_rxOffer he hc⟩

/-- Settles O7: the word placed is the next event's. -/
theorem placedWordRunsNext : Obligations.PlacedWordRunsNext := by
  refine ⟨fun s i w hd => ?_, fun s b => ?_⟩
  · simp only [State.withFetchWord, tableWord_bus]
    exact step_of_decode_ok rfl hd
  · simp only [State.withFetchWord, tableWord_rx]
    exact step_of_rxOffer rfl rfl

/-- Settles O8: the decoder makes the first two checks, GEN the third, and all operations but CLEAR the fourth; then OP
selects the operation. -/
theorem cmdWriteIsCheckedInOrder : Obligations.CmdWriteIsCheckedInOrder := by
  intro s w es he hwe hoff c t
  have hdec : decode (.bus w) = decodeCmd c := decodeBus_cmd hwe hoff
  by_cases hop : cmdOp c = 5 ∨ cmdOp c = 6 ∨ cmdOp c = 7
  · rw [if_pos hop]
    exact step_of_decode_error he (hdec.trans (decodeCmd_reservedOp hop))
  by_cases hfield : cmdOp c ≠ 1 ∧ cmdArg c ≠ 0
  · rw [if_neg hop, if_pos hfield]
    exact step_of_decode_error he (hdec.trans (decodeCmd_reservedField hop hfield))
  have hok := hdec.trans (decodeCmd_of_legal hop hfield)
  rw [if_neg hop, if_neg hfield, step_of_decode_ok he hok]
  by_cases hlen : cmdOp c = 1 ∧ 20 < (cmdArg c).toNat
  · rw [if_pos hlen, selectedInstr_gen hlen.1]
    exact exec_gen_lenRange hlen.2 t
  by_cases hbusy : cmdOp c ≠ 0 ∧ s.regs.phase = .refill
  · rw [if_neg hlen, if_pos hbusy]
    exact exec_busy_of_refill (s := t) hbusy.2 (needsIdle_selectedInstr hbusy.1 hlen) (encode_of_decodeBus hok)
  rw [if_neg hlen, if_neg hbusy]
  simp only [selectedInstr, apply_ite (exec · t), c, t]

/-- Settles O9. -/
theorem runEndsFailedIffAFaultIsRecorded : Obligations.RunEndsFailedIffAFaultIsRecorded := by
  intro s he
  rw [step, fetch_nil he]
  refine ⟨fun hf => ?_, fun hf => ?_⟩
  · simp only [endOfRun, hf]
  · obtain ⟨f, fs, hrec⟩ := List.exists_cons_of_ne_nil hf
    simp only [endOfRun, hrec]

/-- Settles O10: a step's fault is its operation's, or its word's where the word decodes to none. -/
theorem faultsArePreciseAndNeverCleared : Obligations.FaultsArePreciseAndNeverCleared := by
  intro s t h
  cases step_result h with
  | ended he hf ht => exact .inl (ht ▸ rfl)
  | noOffer es he hc ht => exact .inl (ht ▸ rfl)
  | rejected w es e he hd ht =>
    subst ht
    exact .inr ⟨_, rfl, rfl, rfl, rfl, by rw [he]; rfl⟩
  | host w es i he hd hx =>
    rcases exec_faults hx with hf | ⟨f, rfl⟩
    · exact .inl hf
    · exact .inr ⟨f, rfl, rfl, rfl, rfl, by rw [he]; rfl⟩
  | offer b bs es he hc hx => exact .inl (exec_rx_faults (s := { s with events := es }) hx)

/-- Settles O11. -/
theorem noOperationStopsTheMachine : Obligations.NoOperationStopsTheMachine := exec_next

/-- Settles O37: an offer is an RX, or of an empty channel. -/
theorem rxRaisesNoFault : Obligations.RxRaisesNoFault := by
  intro s t es he h
  cases hc : s.channel with
  | nil =>
    rw [step_noOffer he hc] at h
    cases h
    rfl
  | cons b bs =>
    rw [step_of_rxOffer he hc] at h
    exact exec_rx_faults (s := { s with events := es }) h

/-- Settles O39: the host's operations leave the channel, and an RX leaves it or takes its head. -/
theorem channelBytesAreTakenInOrderOnlyInRefill : Obligations.ChannelBytesAreTakenInOrderOnlyInRefill := by
  intro s t h
  cases step_result h with
  | ended he hf ht => exact .inl (ht ▸ rfl)
  | noOffer es he hc ht => exact .inl (ht ▸ rfl)
  | rejected w es e he hd ht => exact .inl (ht ▸ rfl)
  | host w es i he hd hx =>
    rcases exec_channel hx with hkeep | ⟨⟨b, rfl⟩, -, -⟩
    · exact .inl hkeep
    · cases encode_of_decodeBus hd
  | offer b bs es he hc hx =>
    rcases exec_channel hx with hkeep | ⟨-, hp, htail⟩
    · exact .inl hkeep
    · refine .inr ⟨b, ?_, hp, by rw [he]; rfl⟩
      rw [htail, hc]
      rfl

/-- Settles O40. -/
theorem refillWindowIsClosedToTheHost : Obligations.RefillWindowIsClosedToTheHost :=
  fun _ _ _ hp hi hw => exec_busy_of_refill hp hi hw

/-- Settles O41. -/
theorem onlyClearAndRxActDuringARefill : Obligations.OnlyClearAndRxActDuringARefill :=
  fun _ _ _ hp hx hne => (exec_regs_of_refill hp hx).resolve_left hne

/-- Settles O42, operation by operation: each leaves alone every register the spec does not name it for. -/
theorem onlyTheNamedOperationsWriteEachRegister : Obligations.OnlyTheNamedOperationsWriteEachRegister := by
  intro i s t hx
  cases exec_result hx with
  | fault i f => simp +contextual
  | hold b hp => simp +contextual
  | rd off data b => simp +contextual
  | wr off data hp ho => simp
  | clear => simp
  | gen len hl hp hw => simp
  | verify hp hw => simp
  | align hp hw => simp
  | capture hp => simp
  | rx b hp => simp

/-- Settles O43: the step's operation keeps the window or clears OK. -/
theorem changedWindowHasOkClear : Obligations.ChangedWindowHasOkClear := by
  intro s t h hne
  cases step_result h with
  | ended he hf ht => exact absurd (ht ▸ rfl) hne
  | noOffer es he hc ht => exact absurd (ht ▸ rfl) hne
  | rejected w es e he hd ht => exact absurd (ht ▸ rfl) hne
  | host w es i he hd hx => exact (exec_win_or_ok hx).resolve_left hne
  | offer b bs es he hc hx => exact (exec_win_or_ok hx).resolve_left hne

end Sys2Proof.Machine

/-! Runs: a refill to its end (R67, R68), CLEAR beside RX in both orders (R84), LOADWIN then READFRAME (R54), and turns
as a run of the machine (R3, R35). -/

namespace Sys2Proof.Machine

/-! ### Writes of consecutive cells -/

/-- What writes of the window leave as it was: all but WIN and STAT.OK (R73). -/
theorem writeCells_eq (off : Nat) (b : Byte) (bs : List Byte) (r : Regs) :
    writeCells off (b :: bs) r = { r with win := (writeCells off (b :: bs) r).win, ok := false } := by
  induction bs generalizing off b r with
  | nil => rfl
  | cons c bs ih =>
    rw [writeCells, ih]
    rfl

theorem refillRegs_eq {bs : List Byte} (hne : 1 ≤ bs.length) (r : Regs) :
    refillRegs bs r = { r with win := (refillRegs bs r).win, ok := false, pend := 0, phase := .idle } := by
  obtain ⟨b, bs, rfl⟩ := List.exists_cons_of_length_pos hne
  rw [refillRegs, writeCells_eq]
  rfl

/-- The 26 cells written with a frame hold it. -/
theorem writeCells_frame (f : Frame) (r : Regs) :
    writeCells 0 f.toList r = { r with win := f.map some, ok := false } := by
  have hwin : (writeCells 0 f.toList r).win = f.map some := Vector.ext fun i hi => by
    have hb : f.toList[i]? = some f[i] := by simp
    rw [Vector.getElem_map]
    exact writeCells_get (k := i) hb r (j := ⟨i, hi⟩) (Nat.zero_add i).symm
  obtain ⟨b, bs, hbs⟩ := List.exists_cons_of_length_pos (l := f.toList) (by simp)
  rw [← hwin, hbs]
  exact writeCells_eq 0 b bs r

/-! ### The refill, and CLEAR in it -/

/-- Settles O38: the refill is one run, whose writes are those of consecutive cells. -/
theorem refillTakesThePendingBytesInOrder : Obligations.RefillTakesThePendingBytesInOrder := by
  intro s bs rest es hp hn hpos hle hc hev
  have hrun := runsTo_refill (iff_of_true hp (hn ▸ hpos)) hle hn hc
  have hsteps := hrun.runFor_eq (es := es) (by rw [hev, map_eventOf_rx])
  rw [List.length_map] at hsteps
  refine ⟨_, hsteps, fun i j hj hi => ?_, fun i hi => refillRegs_get_before s.regs hi, ?_⟩
  · rw [← List.getElem?_eq_getElem hj]
    exact refillRegs_get hle s.regs hi
  · rw [refillState, ← refillRegs_eq hpos]

/-- Settles O44: the operation that comes second finds the phase the first one left. -/
theorem clearAndRxInEitherOrder : Obligations.ClearAndRxInEitherOrder := by
  intro s b rest es i hp hn hc
  obtain ⟨t, ht, hcell, -⟩ := rxFillsTheNextCell s b rest i hp hc hn
  have hclear (u : State) := clearEndsTheRefillAndKeepsTheWindow u
  have hrxFirst : RunsTo [.rx b, .clear] s _ := .cons_rx hc ht (.cons rfl (hclear t) (.nil _))
  have hclearFirst : RunsTo [.clear, .rx b] s _ :=
    .cons rfl (hclear s) (.cons_rx hc (exec_rx_of_idle rfl b) (.nil _))
  refine ⟨⟨_, hrxFirst es, hcell, ?_, rfl, rfl, exec_rx_faults (t := t) ht⟩,
    ⟨_, hclearFirst es, rfl, hc, rfl, rfl, rfl⟩⟩
  cases (exec_rx_of_refill hp b).symm.trans ht
  rw [takeFromChannel_channel, setRegs_channel, hc]
  rfl

/-! ### LOADWIN and READFRAME -/

theorem runsTo_loadWinSeq {s : State} (hp : s.regs.phase = .idle) (f : Frame) :
    RunsTo (loadWinSeq f) s (setRegs { s.regs with win := f.map some, ok := false } s) := by
  have hseq : loadWinSeq f = f.toList.mapIdx fun k b => wrCell (0 + k) b := by
    simp only [loadWinSeq, Nat.zero_add]
  rw [hseq, ← writeCells_frame]
  exact runsTo_writes hp (by simp)

/-- Consecutive cells of an idle window that holds a frame read as the frame's bytes (R72). -/
theorem forall₂_readsAs_frame {r : Regs} {f : Frame} (hp : r.phase = .idle)
    (hf : ∀ i : Fin Config.frameLen, r.win[i] = some f[i]) {off n : Nat} (hle : off + n ≤ 26) :
    List.Forall₂ (ReadsAs r) ((List.range n).map (off + ·)) ((f.toList.drop off).take n) := by
  refine List.forall₂_iff_get.2 ⟨?_, fun k hk hk' => ?_⟩
  · rw [List.length_map, List.length_range, List.length_take, List.length_drop, Vector.length_toList]
    show n = min n (26 - off)
    omega
  have hlt : off + k < 26 := by
    rw [List.length_map, List.length_range] at hk
    omega
  simpa using readsAs_win (i := ⟨off + k, hlt⟩) hp (hf _)

theorem runsTo_readFrameSeq {s : State} {f : Frame} (hp : s.regs.phase = .idle)
    (hf : ∀ i : Fin Config.frameLen, s.regs.win[i] = some f[i]) : RunsTo readFrameSeq s (returnBytes f.toList s) := by
  have hreads := forall₂_readsAs_frame hp hf (off := 0) (n := 26) (Nat.le_refl 26)
  rw [List.drop_zero, List.take_of_length_le (by simp)] at hreads
  simpa [readFrameSeq] using runsTo_reads hreads rfl

theorem readFrameResult_toList (f : Frame) : readFrameResult f.toList = some f := by
  rw [readFrameResult, dif_pos (by simp)]
  exact congrArg some (Vector.ext fun i hi => by simp)

/-- Settles O47: the writes leave the frame in the window, and the reads return it. -/
theorem loadWinThenReadFrameReturnsTheFrame : Obligations.LoadWinThenReadFrameReturnsTheFrame := by
  intro s f es hp hev
  have hload := runsTo_loadWinSeq hp f
  have hread := runsTo_readFrameSeq (s := setRegs { s.regs with win := f.map some, ok := false } s) (f := f) hp
    fun i => Vector.getElem_map some i.isLt
  have hlen : (loadWinSeq f ++ readFrameSeq).length = 52 := by
    rw [List.length_append, loadWinSeq, List.length_mapIdx, Vector.length_toList]
    rfl
  refine ⟨f.toList, readFrameResult_toList f, ?_⟩
  rw [← hlen, (hload.append hread).runFor_eq hev]
  rfl

/-! ### Turns -/

theorem turnEvents_cons {a : Turn} {as : List Turn} {r q : HostRun} (h : takeTurn a r = .next q) :
    turnEvents (a :: as) r = (turnEvent a r.moves).toList ++ turnEvents as q := by
  simp only [turnEvents, h]

/-- A run of turns that goes on goes on after its first turn. -/
theorem takeTurns_cons_inv {a : Turn} {as : List Turn} {r q : HostRun} (h : takeTurns (a :: as) r = .next q) :
    ∃ p, takeTurn a r = .next p ∧ takeTurns as p = .next q := by
  cases ht : takeTurn a r with
  | next p => exact ⟨p, rfl, takeTurns_cons ht ▸ h⟩
  | fault f =>
    simp only [takeTurns, ht] at h
    contradiction
  | refused f =>
    simp only [takeTurns, ht] at h
    contradiction

/-- A turn gives the machine no event, or one that it spends in one step (R3). -/
theorem takeTurn_step {a : Turn} {r p : HostRun} (h : takeTurn a r = .next p) :
    (turnEvent a r.moves = none ∧ p = r) ∨
      ∃ e, turnEvent a r.moves = some e ∧ stepOn e r.machine = .next p.machine := by
  cases takeTurn_result h with
  | done hm hq => exact .inl ⟨by rw [hm]; rfl, hq⟩
  | move m ms t hm ht hq => exact .inr ⟨_, by rw [hm]; rfl, by rw [hq]; exact ht⟩
  | offer t ht hq => exact .inr ⟨_, rfl, by rw [hq]; exact ht⟩

/-- Settles O48, turn by turn: the events to come make no difference to the step of a turn's event. -/
theorem turnsAreARunOfTheMachine : Obligations.TurnsAreARunOfTheMachine := by
  intro as
  induction as with
  | nil =>
    intro r q h
    cases h
    rfl
  | cons a as ih =>
    intro r q h
    obtain ⟨p, hp, hq⟩ := takeTurns_cons_inv h
    have hrest := ih p q hq
    rw [turnEvents_cons hp]
    rcases takeTurn_step hp with ⟨hnone, rfl⟩ | ⟨e, he, hstep⟩
    · rw [hnone]
      exact hrest
    · obtain ⟨hnext, hevents⟩ := step_of_stepOn (turnEvents as p ++ r.machine.events) hstep
      rw [hevents] at hrest
      rw [he]
      exact (runFor_succ hnext).trans hrest

/-- No operation writes the events to come (R9). -/
theorem exec_events {i : Instr} {s t : State} (hx : exec i s = .next t) : t.events = s.events := by
  have hsame : exec i s = outcomeWithEvents s.events (exec i s) := exec_withEvents s.events i s
  rw [hx] at hsame
  injection hsame with hsame
  exact (congrArg State.events hsame :)

/-- A host operation's turn is the operation (R3). -/
theorem stepOn_eventOf {i : Instr} {w : BusWord} (hw : encode i = .bus w) {s t : State} (hx : exec i s = .next t) :
    stepOn (eventOf i) s = .next t := by
  rw [stepOn, step_eventOf hw hx, ← exec_events hx]

/-- The turn of a move that reads STAT: WAITIDLE's poll, and RECEIVE's read after ALIGN (R54). -/
theorem takeTurn_readStat {r : HostRun} {m : HostMove} {ms : List HostMove} (hm : r.moves = m :: ms)
    (hi : moveInstr m = rdAt 0x1B) :
    takeTurn .host r = .next (afterMove m ms r (returnByte (statByte r.machine.regs) r.machine)) :=
  takeTurn_move hm (hi ▸ stepOn_eventOf rfl (readsAs_stat _ _ rfl))

/-- WAITIDLE's poll (R54): the host goes on where bit 2 of the byte read is 0, and polls again where it is 1. -/
theorem takeTurn_waitIdle {r : HostRun} {ms : List HostMove} (hm : r.moves = .waitIdle :: ms) :
    takeTurn .host r = .next { r with
      machine := returnByte (statByte r.machine.regs) r.machine
      moves := if (statByte r.machine.regs).getLsbD 2 = false then ms else .waitIdle :: ms } := by
  rw [takeTurn_readStat hm rfl]
  simp only [afterMove, byteReturned_returnByte, movesAfter, moveStops_waitIdle, Option.any_some, pollIsIdle,
    Bool.not_eq_true', Bool.or_false]

/-- RECEIVE's read of STAT after ALIGN (R54): it stops where bit 1 of the byte read is 1. -/
theorem takeTurn_stopAtFramingFailure {r : HostRun} {ms : List HostMove} (hm : r.moves = .stopAtFramingFailure :: ms) :
    takeTurn .host r = .next
      { machine := returnByte (statByte r.machine.regs) r.machine
        moves := if (statByte r.machine.regs).getLsbD 1 = true then [] else ms
        framingFailure := r.framingFailure || (statByte r.machine.regs).getLsbD 1 } := by
  rw [takeTurn_readStat hm rfl]
  simp only [afterMove, byteReturned_returnByte, movesAfter, moveStops, Option.any_some, pollIsFramingFailure]

/-- STAT's bit 2 is 0 iff PHASE = IDLE (R14). -/
theorem statByte_idle_iff (r : Regs) : (statByte r).getLsbD 2 = false ↔ r.phase = .idle := by
  rw [statByte_bit2, decide_eq_false_iff_not]
  rcases phase_cases r.phase with hp | hp <;> simp [hp]

/-- Settles O49: an offer of the RX channel is not the host's turn. -/
theorem waitIdlePollsUntilBusyIsZero : Obligations.WaitIdlePollsUntilBusyIsZero := by
  refine ⟨fun _ _ => takeTurn_waitIdle, statByte_idle_iff, fun r q h => ?_⟩
  cases takeTurn_result h with
  | offer t ht hq => exact hq ▸ ⟨rfl, rfl⟩

/-- Settles O50. -/
theorem receiveStopsIffFramingFailure : Obligations.ReceiveStopsIffFramingFailure :=
  ⟨fun _ _ => takeTurn_stopAtFramingFailure, statByte_bit1⟩

end Sys2Proof.Machine

/-! RECEIVE in every order of turns (R54, R70, R84). Whatever the order, the run is at one of RECEIVE's stages: at each
the window is either being refilled, to registers that are known beforehand, or idle. Every turn keeps this, and some
turn always brings the end nearer. -/

namespace Sys2Proof.Machine

/-! ### Offers of the RX channel -/

/-- An offer of the RX channel takes the machine from `u` to `v`; it counts PEND down while a refill runs (R68). -/
structure OfferTo (u v : State) : Prop where
  step : stepOn .rxOffer u = .next v
  faults : v.faults = u.faults
  returned : v.returned = u.returned
  pend_lt : u.regs.phase = .refill → v.regs.pend.toNat < u.regs.pend.toNat

/-- In IDLE an offer changes nothing (R69). -/
theorem OfferTo.hold {u : State} (hp : u.regs.phase = .idle) : OfferTo u u where
  step := by
    cases hc : u.channel with
    | nil => exact step_noOffer (s := { u with events := .rxOffer :: u.events }) rfl hc
    | cons b bs => exact step_rxOffer hc (exec_rx_of_idle hp b) u.events
  faults := rfl
  returned := rfl
  pend_lt := fun h => by simp [hp] at h

/-- In REFILL an offer of a byte is an accepted RX (R68). -/
theorem OfferTo.accept {u : State} {b : Byte} {bs : List Byte} (hp : u.regs.phase = .refill)
    (hpos : 0 < u.regs.pend.toNat) (hc : u.channel = b :: bs) :
    OfferTo u (takeFromChannel (setRegs (rxRegs b u.regs) u)) where
  step := step_rxOffer hc (exec_rx_of_refill hp b) u.events
  faults := rfl
  returned := rfl
  pend_lt := fun _ => by
    rw [takeFromChannel_regs, setRegs_regs, rxRegs_pend]
    bv_omega

/-- The bytes pending are the next of the channel; once they are taken the registers are `r` and `rest` is left in the
channel. -/
def RefillsTo (r : Regs) (rest : List Byte) (u : State) : Prop :=
  ∃ todo : List Byte, (u.regs.phase = .refill ↔ 0 < u.regs.pend.toNat) ∧ todo.length ≤ 26 ∧
    u.regs.pend.toNat = todo.length ∧ u.channel = todo ++ rest ∧ refillRegs todo u.regs = r

/-- In IDLE all pending bytes have been taken. -/
theorem RefillsTo.of_idle {r : Regs} {rest : List Byte} {u : State} (h : RefillsTo r rest u)
    (hp : u.regs.phase = .idle) : u.regs = r ∧ u.channel = rest := by
  obtain ⟨todo, hphase, -, hn, hc, hr⟩ := h
  have hnone : u.regs.pend.toNat = 0 := Nat.eq_zero_of_not_pos fun hpos => by simp [hphase.2 hpos] at hp
  obtain rfl : todo = [] := List.eq_nil_of_length_eq_zero (hn.symm.trans hnone)
  exact ⟨(refillRegs_nil (BitVec.eq_of_toNat_eq hnone) hp).symm.trans hr, hc⟩

theorem RefillsTo.offer {r : Regs} {rest : List Byte} {u : State} (h : RefillsTo r rest u) :
    ∃ v, OfferTo u v ∧ RefillsTo r rest v := by
  rcases phase_cases u.regs.phase with hp | hp
  · exact ⟨u, .hold hp, h⟩
  obtain ⟨todo, hphase, hle, hn, hc, hr⟩ := h
  have hpos := hphase.1 hp
  obtain ⟨b, todo, rfl⟩ := List.exists_cons_of_length_pos (hn ▸ hpos)
  rw [List.length_cons] at hle hn
  refine ⟨_, .accept hp hpos hc, todo, rxRegs_refill_iff_pending hp b, Nat.le_of_lt hle, ?_, ?_,
    (refillRegs_rxRegs hle hn).trans hr⟩
  · rw [takeFromChannel_regs, setRegs_regs, rxRegs_pend]
    bv_omega
  · rw [takeFromChannel_channel, setRegs_channel, hc]
    rfl

theorem RefillsTo.ff {r : Regs} {rest : List Byte} {u : State} (h : RefillsTo r rest u) : u.regs.ff = r.ff := by
  obtain ⟨todo, -, -, -, -, hr⟩ := h
  rw [← hr, refillRegs_ff]

/-! ### Turns -/

/-- If every turn goes on and keeps `P`, every run of turns does. -/
theorem takeTurns_keeps {P : HostRun → Prop} (h : ∀ a q, P q → ∃ p, takeTurn a q = .next p ∧ P p) (as : List Turn)
    {q : HostRun} (hq : P q) : ∃ p, takeTurns as q = .next p ∧ P p := by
  induction as generalizing q with
  | nil => exact ⟨q, rfl, hq⟩
  | cons a as ih =>
    obtain ⟨p, hturn, hp⟩ := h a q hq
    obtain ⟨p', hrest, hp'⟩ := ih hp
    exact ⟨p', (takeTurns_cons hturn).trans hrest, hp'⟩

/-- The turn of a plain host operation. -/
theorem takeTurn_issue {r : HostRun} {i : Instr} {ms : List HostMove} {w : BusWord} {t : State}
    (hm : r.moves = .issue i :: ms) (hw : encode i = .bus w) (hx : exec i r.machine = .next t) :
    takeTurn .host r = .next { r with machine := t, moves := ms } := by
  rw [takeTurn_move hm (stepOn_eventOf hw hx), afterMove, movesAfter_issue, moveStops_issue, Bool.or_false]

theorem takeTurn_waitIdle_of_idle {r : HostRun} {ms : List HostMove} (hm : r.moves = .waitIdle :: ms)
    (hp : r.machine.regs.phase = .idle) :
    takeTurn .host r =
      .next { r with machine := returnByte (statByte r.machine.regs) r.machine, moves := ms } := by
  rw [takeTurn_waitIdle hm, if_pos ((statByte_idle_iff _).2 hp)]

theorem takeTurn_waitIdle_of_refill {r : HostRun} {ms : List HostMove} (hm : r.moves = .waitIdle :: ms)
    (hp : r.machine.regs.phase = .refill) :
    takeTurn .host r =
      .next { r with machine := returnByte (statByte r.machine.regs) r.machine, moves := .waitIdle :: ms } := by
  have hbusy : ¬ (statByte r.machine.regs).getLsbD 2 = false := by
    rw [statByte_idle_iff, hp]
    decide
  rw [takeTurn_waitIdle hm, if_neg hbusy]

theorem takeTurn_stopAtFramingFailure_of_ff {r : HostRun} {ms : List HostMove}
    (hm : r.moves = .stopAtFramingFailure :: ms) (hff : r.machine.regs.ff = false) :
    takeTurn .host r =
      .next { r with machine := returnByte (statByte r.machine.regs) r.machine, moves := ms } := by
  rw [takeTurn_stopAtFramingFailure hm, statByte_bit1, hff, Bool.or_false, if_neg Bool.false_ne_true]

/-! ### The stages of RECEIVE -/

/-- What DECODE's reads return where the registers are `r` and the window holds `f` (R62). -/
def decodeBytes (r : Regs) (f : Frame) : List Byte := statByte r :: (f.toList.drop 2).take 21

theorem decodeResult_decodeBytes (r : Regs) (f : Frame) :
    decodeResult (decodeBytes r f) =
      some ⟨f[2],
        Vector.ofFn fun j : Fin Config.payLen => f[3 + j.val]'(Nat.add_lt_add_left j.isLt 3 |>.trans (by decide)),
        r.ok⟩ := by
  have hlen : (decodeBytes r f).length = 2 + Config.payLen := by
    rw [decodeBytes, List.length_cons, List.length_take, List.length_drop, Vector.length_toList]
    rfl
  have hget (j : Nat) (hj : 2 + j < 23) :
      (decodeBytes r f)[j + 1]'(by rw [hlen]; show _ < 22; omega) = f[2 + j]'(Nat.lt_trans hj (by decide)) := by
    simp [decodeBytes]
  rw [decodeResult, dif_pos hlen]
  simp only [Option.some.injEq, DecodeResult.mk.injEq]
  refine ⟨hget 0 (by decide), Vector.ext fun j hj => ?_, statByte_bit0 r⟩
  have hj' : j < 20 := hj
  have hbyte := hget (j + 1) (by omega)
  simp only [Vector.getElem_ofFn]
  simpa only [Nat.add_comm, Nat.add_left_comm] using hbyte

/-- Where a run of RECEIVE on the channel `bs ++ rest` stands: the machine, the moves left, and the bytes DECODE has
returned. -/
inductive ReceiveStage (s : State) (f : Frame) (bs rest : List Byte) (u : State) :
    List HostMove → List Byte → Prop where
  | start (hr : u.regs = s.regs) (hc : u.channel = bs ++ rest) : ReceiveStage s f bs rest u receiveMoves []
  | capturing (h : RefillsTo (capturedRegs bs s.regs) (bs.drop 26 ++ rest) u) :
      ReceiveStage s f bs rest u (receiveMoves.drop 1) []
  | captured (hr : u.regs = capturedRegs bs s.regs) (hc : u.channel = bs.drop 26 ++ rest) :
      ReceiveStage s f bs rest u (receiveMoves.drop 2) []
  | aligned (h : RefillsTo (realignedRegs bs s.regs) rest u) : ReceiveStage s f bs rest u (receiveMoves.drop 3) []
  | refilling (h : RefillsTo (realignedRegs bs s.regs) rest u) : ReceiveStage s f bs rest u (receiveMoves.drop 4) []
  | refilled (hr : u.regs = realignedRegs bs s.regs) (hc : u.channel = rest) :
      ReceiveStage s f bs rest u (receiveMoves.drop 5) []
  | reading (offs : List Nat) (done left : List Byte) (hr : u.regs = verifyRegs (realignedRegs bs s.regs))
      (hc : u.channel = rest) (hleft : List.Forall₂ (ReadsAs (verifyRegs (realignedRegs bs s.regs))) offs left)
      (hall : done ++ left = decodeBytes (verifyRegs (realignedRegs bs s.regs)) f) :
      ReceiveStage s f bs rest u (movesOf (offs.map rdAt)) done

/-- An offer leaves RECEIVE at its stage: the machine is idle, or it is being refilled as before. -/
theorem ReceiveStage.offer {s u : State} {f : Frame} {bs rest done : List Byte} {ms : List HostMove}
    (hp : s.regs.phase = .idle) (h : ReceiveStage s f bs rest u ms done) :
    ∃ v, OfferTo u v ∧ ReceiveStage s f bs rest v ms done := by
  cases h with
  | start hr hc => exact ⟨u, .hold (hr ▸ hp), .start hr hc⟩
  | capturing h =>
    obtain ⟨v, hv, h⟩ := h.offer
    exact ⟨v, hv, .capturing h⟩
  | captured hr hc => exact ⟨u, .hold (hr ▸ rfl), .captured hr hc⟩
  | aligned h =>
    obtain ⟨v, hv, h⟩ := h.offer
    exact ⟨v, hv, .aligned h⟩
  | refilling h =>
    obtain ⟨v, hv, h⟩ := h.offer
    exact ⟨v, hv, .refilling h⟩
  | refilled hr hc => exact ⟨u, .hold (hr ▸ rfl), .refilled hr hc⟩
  | reading offs done left hr hc hleft hall =>
    exact ⟨u, .hold (hr ▸ rfl), .reading offs done left hr hc hleft hall⟩

/-- What holds in every run of RECEIVE from the machine `s`: it is at a stage, has not stopped and has recorded no
fault; the bytes returned before DECODE's are polls of STAT. -/
structure ReceiveInv (s : State) (f : Frame) (bs rest : List Byte) (q : HostRun) : Prop where
  framingFailure : q.framingFailure = false
  faults : q.machine.faults = s.faults
  stage : ∃ polls done, q.machine.returned = s.returned ++ polls ++ done ∧
    ReceiveStage s f bs rest q.machine q.moves done

/-! ### The turns of RECEIVE -/

theorem refillsTo_capture {s u : State} {bs rest : List Byte} (hlen : 26 ≤ bs.length) (hr : u.regs = s.regs)
    (hc : u.channel = bs ++ rest) :
    RefillsTo (capturedRegs bs s.regs) (bs.drop 26 ++ rest) (setRegs (captureRegs u.regs) u) := by
  have htake : (bs.take 26).length = 26 := List.length_take_of_le hlen
  refine ⟨bs.take 26, by simp, htake.le, ?_, ?_, by rw [setRegs_regs, hr, capturedRegs]⟩
  · rw [setRegs_regs, captureRegs_pend, htake]
    rfl
  · rw [setRegs_channel, hc, ← List.append_assoc, List.take_append_drop]

theorem refillsTo_align {s u : State} {bs rest : List Byte} {k : Fin Config.frameLen} (hlen : bs.length = 26 + k.val)
    (hmarker : findMarker (capturedRegs bs s.regs).win = some k) (hr : u.regs = capturedRegs bs s.regs)
    (hc : u.channel = bs.drop 26 ++ rest) :
    RefillsTo (realignedRegs bs s.regs) rest (setRegs (alignRegs u.regs) u) := by
  have hdrop : (bs.drop 26).length = k.val := by rw [List.length_drop, hlen, Nat.add_sub_cancel_left]
  refine ⟨bs.drop 26, ?_, hdrop.trans_le k.isLt.le, ?_, hc, by rw [setRegs_regs, hr, realignedRegs]⟩
  · rw [setRegs_regs, hr]
    exact alignRegs_refill_iff_pending hmarker rfl rfl
  · rw [setRegs_regs, hr, hdrop]
    exact alignRegs_pend_of_marker hmarker rfl

/-- What DECODE's reads find once the frame has been verified (R62). -/
theorem forall₂_readsAs_decode {r : Regs} {f : Frame} (hp : r.phase = .idle)
    (hf : ∀ i : Fin Config.frameLen, r.win[i] = some f[i]) :
    List.Forall₂ (ReadsAs (verifyRegs r)) (0x1B :: (List.range 21).map (2 + ·)) (decodeBytes (verifyRegs r) f) :=
  .cons (readsAs_stat _) (forall₂_readsAs_frame (r := verifyRegs r) (off := 2) (n := 21) hp hf (by decide))

section Receive

variable {s : State} {f : Frame} {bs rest : List Byte} {k : Fin Config.frameLen} (hp : s.regs.phase = .idle)
  (hlen : bs.length = 26 + k.val) (hmarker : findMarker (capturedRegs bs s.regs).win = some k)
  (hwin : ∀ i : Fin Config.frameLen, (realignedRegs bs s.regs).win[i] = some f[i])

include hp in
theorem ReceiveInv.rx_turn {q : HostRun} (h : ReceiveInv s f bs rest q) :
    ∃ v, OfferTo q.machine v ∧ takeTurn .rx q = .next { q with machine := v } ∧
      ReceiveInv s f bs rest { q with machine := v } := by
  obtain ⟨polls, done, hret, hstage⟩ := h.stage
  obtain ⟨v, hv, hstage⟩ := hstage.offer hp
  exact ⟨v, hv, takeTurn_offer hv.step, h.framingFailure, hv.faults.trans h.faults, polls, done,
    hv.returned.trans hret, hstage⟩

/-- The byte of a poll is returned before DECODE's. -/
theorem returned_poll {s u : State} {polls : List Byte} (hret : u.returned = s.returned ++ polls ++ []) (b : Byte) :
    (returnByte b u).returned = s.returned ++ (polls ++ [b]) ++ [] := by
  simp [hret]

/-- WAITIDLE's turn: its poll ends it where the refill is over, and is repeated where it is not. -/
theorem ReceiveInv.waitIdle_turn {q : HostRun} {ms : List HostMove} {polls rest' : List Byte} {r : Regs}
    (hms : q.moves = .waitIdle :: ms) (hff : q.framingFailure = false) (hfaults : q.machine.faults = s.faults)
    (hret : q.machine.returned = s.returned ++ polls ++ []) (h : RefillsTo r rest' q.machine)
    (hrefill : ∀ v, RefillsTo r rest' v → ReceiveStage s f bs rest v (.waitIdle :: ms) [])
    (hidle : ∀ v : State, v.regs = r → v.channel = rest' → ReceiveStage s f bs rest v ms []) :
    ∃ p, takeTurn .host q = .next p ∧ ReceiveInv s f bs rest p ∧
      (q.machine.regs.phase = .idle → p.moves = ms) := by
  rcases phase_cases q.machine.regs.phase with hp | hp
  · obtain ⟨hr, hc⟩ := h.of_idle hp
    exact ⟨_, takeTurn_waitIdle_of_idle hms hp,
      ⟨hff, hfaults, _, [], returned_poll hret _, hidle _ hr hc⟩, fun _ => rfl⟩
  · exact ⟨_, takeTurn_waitIdle_of_refill hms hp,
      ⟨hff, hfaults, _, [], returned_poll hret _, hrefill _ h⟩, fun hi => by simp [hp] at hi⟩

include hp hlen hmarker hwin in
/-- The host's turn goes on to the next stage, but for a poll during a refill, which is repeated. -/
theorem ReceiveInv.host_turn {q : HostRun} (h : ReceiveInv s f bs rest q) :
    ∃ p, takeTurn .host q = .next p ∧ ReceiveInv s f bs rest p ∧
      (q.machine.regs.phase = .idle → p.moves = q.moves.tail) := by
  obtain ⟨hff, hfaults, polls, done, hret, hstage⟩ := h
  generalize hms : q.moves = ms at hstage
  cases hstage with
  | start hr hc =>
    exact ⟨_, takeTurn_issue hms rfl (exec_capture_of_idle (hr ▸ hp)),
      ⟨hff, hfaults, polls, [], hret, .capturing (refillsTo_capture (by omega) hr hc)⟩, fun _ => rfl⟩
  | capturing h => exact ReceiveInv.waitIdle_turn hms hff hfaults hret h (fun _ => .capturing) (fun _ => .captured)
  | captured hr hc =>
    have hx := exec_align_of_written (s := q.machine) (hr ▸ rfl) (hr ▸ capturedRegs_written (by omega) s.regs)
    exact ⟨_, takeTurn_issue hms rfl hx,
      ⟨hff, hfaults, polls, [], hret, .aligned (refillsTo_align hlen hmarker hr hc)⟩, fun _ => rfl⟩
  | aligned h =>
    exact ⟨_, takeTurn_stopAtFramingFailure_of_ff hms (h.ff.trans (realignedRegs_ff hmarker)),
      ⟨hff, hfaults, _, [], returned_poll hret _, .refilling h⟩, fun _ => rfl⟩
  | refilling h => exact ReceiveInv.waitIdle_turn hms hff hfaults hret h (fun _ => .refilling) (fun _ => .refilled)
  | refilled hr hc =>
    have hx := exec_verify_of_written (s := q.machine) (hr ▸ rfl) fun i => by
      rw [hr, hwin i]
      exact Option.some_ne_none _
    have hnext := ReceiveStage.reading (u := setRegs (verifyRegs q.machine.regs) q.machine) _ [] _
      (congrArg verifyRegs hr) hc (forall₂_readsAs_decode rfl hwin) rfl
    exact ⟨_, takeTurn_issue hms rfl hx, ⟨hff, hfaults, polls, [], hret, hnext⟩, fun _ => rfl⟩
  | reading offs done left hr hc hleft hall =>
    cases hleft with
    | nil =>
      have hturn : takeTurn .host q = .next q := by simp only [takeTurn, turnEvent, hms]; rfl
      exact ⟨q, hturn, ⟨hff, hfaults, polls, done, hret, hms ▸ .reading [] done [] hr hc .nil hall⟩, fun _ => hms⟩
    | @cons off b offs left hb hleft =>
      have hnext := ReceiveStage.reading (u := returnByte b q.machine) offs (done ++ [b]) left hr hc hleft
        (by simpa using hall)
      exact ⟨_, takeTurn_issue hms rfl (hb q.machine hr),
        ⟨hff, hfaults, polls, done ++ [b], by simp [hret], hnext⟩, fun _ => rfl⟩

include hp hlen hmarker hwin in
theorem ReceiveInv.turn (a : Turn) {q : HostRun} (h : ReceiveInv s f bs rest q) :
    ∃ p, takeTurn a q = .next p ∧ ReceiveInv s f bs rest p := by
  cases a with
  | host =>
    obtain ⟨p, hturn, hinv, -⟩ := h.host_turn hp hlen hmarker hwin
    exact ⟨p, hturn, hinv⟩
  | rx =>
    obtain ⟨v, -, hturn, hinv⟩ := h.rx_turn hp
    exact ⟨_, hturn, hinv⟩

/-- How far the end of a pseudo-operation is: a move can leave up to 31 bytes pending. -/
def turnsLeft (q : HostRun) : Nat := 32 * q.moves.length + q.machine.regs.pend.toNat

include hp hlen hmarker hwin in
/-- Some turn brings the end nearer: an offer during a refill, else the host's next move. -/
theorem ReceiveInv.progress {q : HostRun} (h : ReceiveInv s f bs rest q) (hm : q.moves ≠ []) :
    ∃ a p, takeTurn a q = .next p ∧ ReceiveInv s f bs rest p ∧ turnsLeft p < turnsLeft q := by
  rcases phase_cases q.machine.regs.phase with hidle | hrefill
  · obtain ⟨p, hturn, hinv, hmoves⟩ := h.host_turn hp hlen hmarker hwin
    refine ⟨.host, p, hturn, hinv, ?_⟩
    have hpos := List.length_pos_of_ne_nil hm
    have hpend := p.machine.regs.pend.isLt
    rw [turnsLeft, turnsLeft, hmoves hidle, List.length_tail]
    omega
  · obtain ⟨v, hv, hturn, hinv⟩ := h.rx_turn hp
    exact ⟨.rx, _, hturn, hinv, Nat.add_lt_add_left (hv.pend_lt hrefill) _⟩

include hp hlen hmarker hwin in
theorem ReceiveInv.exists_end (q : HostRun) (h : ReceiveInv s f bs rest q) :
    ∃ as p, takeTurns as q = .next p ∧ p.moves = [] := by
  by_cases hm : q.moves = []
  · exact ⟨[], q, rfl, hm⟩
  · obtain ⟨a, p, hturn, hp', hlt⟩ := h.progress hp hlen hmarker hwin hm
    obtain ⟨as, e, has, he⟩ := ReceiveInv.exists_end p hp'
    exact ⟨a :: as, e, (takeTurns_cons hturn).trans has, he⟩
termination_by turnsLeft q

/-- With no move left, RECEIVE has read the verified frame to its end. -/
theorem ReceiveStage.at_end {u : State} {done : List Byte} (h : ReceiveStage s f bs rest u [] done) :
    u.regs = verifyRegs (realignedRegs bs s.regs) ∧ u.channel = rest ∧
      done = decodeBytes (verifyRegs (realignedRegs bs s.regs)) f := by
  generalize hms : ([] : List HostMove) = ms at h
  cases h with
  | reading offs _ left hr hc hleft hall =>
    cases hleft with
    | nil => exact ⟨hr, hc, by rwa [List.append_nil] at hall⟩
    | cons hb hleft => contradiction
  | _ => contradiction

end Receive

/-- Settles O51: every turn keeps RECEIVE at a stage, the last stage is the verified frame read to its end, and some
turn always brings it nearer. -/
theorem receiveReturnsTheFrameInEveryOrderOfTurns : Obligations.ReceiveReturnsTheFrameInEveryOrderOfTurns := by
  intro s f g rest hp hvalid hf hle hg hc
  obtain ⟨k, hk⟩ : ∃ k : Fin Config.frameLen, k.val = g.length := ⟨⟨g.length, Nat.lt_succ_of_le hle⟩, rfl⟩
  have hlen : (g ++ f.toList).length = 26 + k.val := by
    rw [List.length_append, Vector.length_toList, hk, Nat.add_comm]
  have hmarker : findMarker (capturedRegs (g ++ f.toList) s.regs).win = some k :=
    findMarker_behind_garbage (capturedRegs_get (by omega) s.regs) hk hf hg
  have hwin : ∀ i : Fin Config.frameLen, (realignedRegs (g ++ f.toList) s.regs).win[i] = some f[i] := fun i => by
    rw [realignedRegs_get hlen hmarker, hk, garbage_frame_get]
  have hstart : ReceiveInv s f (g ++ f.toList) rest (startHostRun receiveMoves s) :=
    ⟨rfl, rfl, [], [], by simp [startHostRun], .start rfl hc⟩
  refine ⟨fun as => ?_, hstart.exists_end hp hlen hmarker hwin⟩
  obtain ⟨q, hturns, hff, hfaults, polls, done, hret, hstage⟩ :=
    takeTurns_keeps (fun a q h => h.turn hp hlen hmarker hwin a) as hstart
  refine ⟨q, hturns, hff, fun hm => ?_⟩
  obtain ⟨hr, hchannel, rfl⟩ := (hm ▸ hstage).at_end
  rw [hr, verifyRegs_win, verifyRegs_koff, realignedRegs_koff hmarker]
  have hok : (verifyRegs (realignedRegs (g ++ f.toList) s.regs)).ok = true :=
    (verifyRegs_ok_of_frame hwin).trans hvalid
  refine ⟨hwin, hk, rfl, hchannel, hfaults, polls, _, hret, ?_⟩
  rw [decodeResult_decodeBytes, hok]

end Sys2Proof.Machine
